-- ==== Sys2Proof/Word.lean ====
section
/-! DEFINITION. The widths of the machine: data, instruction words, register and key numbers (00_scope.md R2, R8;
30_encoding.md R70, R71). Everything is unsigned; BitVec arithmetic wraps as R8's `trunc_N` does. -/

namespace Sys2Proof

/-- A register, a memory cell or a timer: 8 bits (R2). -/
abbrev Byte := BitVec 8

/-- An instruction word, `I`, `pc` or a return address: 16 bits (R25, R27, R31, R70). -/
abbrev Word := BitVec 16

/-- The `NNN` field: 12 bits (R71). -/
abbrev Addr12 := BitVec 12

/-- The `N` field: 4 bits (R71). -/
abbrev Nibble := BitVec 4

/-- A register number. Four bits, so that an index outside 0..15 cannot be written (R21). -/
abbrev RegIdx := BitVec 4

/-- A logical key number 0..15 (R42, R180). -/
abbrev KeyIdx := BitVec 4

/-- Register 15, the flag register `VF` (R23). -/
abbrev VF : RegIdx := 0xF#4

end Sys2Proof
end

