-- ==== Sys2Proof/Syntax.lean ====
section
/-! DEFINITION. The instructions: one constructor for each of the 35 rows of spec/opcode_table.json (30_encoding.md
R73), with the operand fields of R71 and R72. Meanings stand in Machine/. -/

namespace Sys2Proof

/-- An instruction with its operand fields. The comment of a constructor is its row's pattern and syntax. -/
inductive Instr where
  /-- 00E0 `CLS` -/
  | cls
  /-- 00EE `RET` -/
  | ret
  /-- 0NNN `SYS NNN`, the legacy machine-code call (R148) -/
  | sys (nnn : Addr12)
  /-- 1NNN `JP NNN` -/
  | jp (nnn : Addr12)
  /-- 2NNN `CALL NNN` -/
  | call (nnn : Addr12)
  /-- 3XNN `SE Vx, NN` -/
  | seImm (x : RegIdx) (nn : Byte)
  /-- 4XNN `SNE Vx, NN` -/
  | sneImm (x : RegIdx) (nn : Byte)
  /-- 5XY0 `SE Vx, Vy` -/
  | seReg (x y : RegIdx)
  /-- 6XNN `LD Vx, NN` -/
  | ldImm (x : RegIdx) (nn : Byte)
  /-- 7XNN `ADD Vx, NN` -/
  | addImm (x : RegIdx) (nn : Byte)
  /-- 8XY0 `LD Vx, Vy` -/
  | ldReg (x y : RegIdx)
  /-- 8XY1 `OR Vx, Vy` -/
  | orReg (x y : RegIdx)
  /-- 8XY2 `AND Vx, Vy` -/
  | andReg (x y : RegIdx)
  /-- 8XY3 `XOR Vx, Vy` -/
  | xorReg (x y : RegIdx)
  /-- 8XY4 `ADD Vx, Vy` -/
  | addReg (x y : RegIdx)
  /-- 8XY5 `SUB Vx, Vy` -/
  | subReg (x y : RegIdx)
  /-- 8XY6 `SHR Vx {, Vy}` -/
  | shr (x y : RegIdx)
  /-- 8XY7 `SUBN Vx, Vy` -/
  | subnReg (x y : RegIdx)
  /-- 8XYE `SHL Vx {, Vy}` -/
  | shl (x y : RegIdx)
  /-- 9XY0 `SNE Vx, Vy` -/
  | sneReg (x y : RegIdx)
  /-- ANNN `LD I, NNN` -/
  | ldI (nnn : Addr12)
  /-- BNNN `JP V0, NNN` -/
  | jpV0 (nnn : Addr12)
  /-- CXNN `RND Vx, NN` -/
  | rnd (x : RegIdx) (nn : Byte)
  /-- DXYN `DRW Vx, Vy, N` -/
  | drw (x y : RegIdx) (n : Nibble)
  /-- EX9E `SKP Vx` -/
  | skp (x : RegIdx)
  /-- EXA1 `SKNP Vx` -/
  | sknp (x : RegIdx)
  /-- FX07 `LD Vx, DT` -/
  | ldVxDt (x : RegIdx)
  /-- FX0A `LD Vx, K` -/
  | ldVxK (x : RegIdx)
  /-- FX15 `LD DT, Vx` -/
  | ldDtVx (x : RegIdx)
  /-- FX18 `LD ST, Vx` -/
  | ldStVx (x : RegIdx)
  /-- FX1E `ADD I, Vx` -/
  | addI (x : RegIdx)
  /-- FX29 `LD F, Vx` -/
  | ldF (x : RegIdx)
  /-- FX33 `LD B, Vx` -/
  | ldB (x : RegIdx)
  /-- FX55 `LD [I], Vx` -/
  | storeRegs (x : RegIdx)
  /-- FX65 `LD Vx, [I]` -/
  | loadRegs (x : RegIdx)
  deriving DecidableEq, Repr

end Sys2Proof
end

