-- ==== Sys2Proof/WellFormed.lean ====
section
/-! DEFINITION. Which instruction terms are instructions of the machine. The operand types already bound every field;
the one check left is the exclusion list of the 0NNN row (30_encoding.md R73 row 3, R74; opcode_table.json "excludes"). -/

namespace Sys2Proof

/-- The three low-12-bit values that are no legacy call: `0x000` is an unknown word, `0x0E0` is CLS and `0x0EE` is RET
(R74, R148). -/
def notLegacy (nnn : Addr12) : Bool :=
  nnn == 0x000#12 || nnn == 0x0E0#12 || nnn == 0x0EE#12

/-- Well-formed: some word decodes to the term. -/
def Instr.wellFormed : Instr → Bool
  | .sys nnn => !notLegacy nnn
  | .cls | .ret | .jp _ | .call _ | .seImm _ _ | .sneImm _ _ | .seReg _ _ | .ldImm _ _ | .addImm _ _ | .ldReg _ _
  | .orReg _ _ | .andReg _ _ | .xorReg _ _ | .addReg _ _ | .subReg _ _ | .shr _ _ | .subnReg _ _ | .shl _ _
  | .sneReg _ _ | .ldI _ | .jpV0 _ | .rnd _ _ | .drw _ _ _ | .skp _ | .sknp _ | .ldVxDt _ | .ldVxK _ | .ldDtVx _
  | .ldStVx _ | .addI _ | .ldF _ | .ldB _ | .storeRegs _ | .loadRegs _ => true

end Sys2Proof
end

