-- ==== Sys2Proof/Machine/Glyphs.lean ====
section
/-! DEFINITION. The default of the parameter `GLYPHS` (20_memory.md R58, 92_eei_decisions.md D27): sixteen 5-byte glyphs.
The byte values are the spec's default from general knowledge (PRESUMED, log 7); the machine's own table is the parameter
`State.params.glyphs`. -/

namespace Sys2Proof.Machine

/-- The table of R58, glyphs 0 to F in order. -/
def glyphTable : List Byte :=
  [0xF0, 0x90, 0x90, 0x90, 0xF0, 0x20, 0x60, 0x20, 0x20, 0x70,
   0xF0, 0x10, 0xF0, 0x80, 0xF0, 0xF0, 0x10, 0xF0, 0x10, 0xF0,
   0x90, 0x90, 0xF0, 0x10, 0x10, 0xF0, 0x80, 0xF0, 0x10, 0xF0,
   0xF0, 0x80, 0xF0, 0x90, 0xF0, 0xF0, 0x10, 0x20, 0x40, 0x40] ++
  [0xF0, 0x90, 0xF0, 0x90, 0xF0, 0xF0, 0x90, 0xF0, 0x10, 0xF0,
   0xF0, 0x90, 0xF0, 0x90, 0x90, 0xE0, 0x90, 0xE0, 0x90, 0xE0,
   0xF0, 0x80, 0x80, 0x80, 0xF0, 0xE0, 0x90, 0x90, 0x90, 0xE0,
   0xF0, 0x80, 0xF0, 0x80, 0xF0, 0xF0, 0x80, 0xF0, 0x80, 0x80]

/-- The default of `GLYPHS`: the table of R58 as the 80 bytes the parameter has. -/
def defaultGlyphs : Vector Byte 80 := ⟨glyphTable.toArray, rfl⟩

end Sys2Proof.Machine
end

