-- ==== Sys2Proof/Config.lean ====
section
/-! DEFINITION. The implementation parameters of 00_scope.md R6 that an address or a bound is computed from, the
values the quirk switches have after reset (the default of `GLYPHS` stands in Machine/Glyphs.lean), and the free value
`rnd`. The parameters that are widths or counts of a register file (16 registers, 16 stack entries, 64 by 32 cells, 16
keys) stand in the types of Machine/State.lean. All literals are the spec's and, as it says itself, unaudited (log
35). -/

namespace Sys2Proof.Config

/-- `MEM_SIZE`: bytes of memory (R6, R50). -/
def memSize : Nat := 4096

/-- `PROG_BASE`: load address of the image and reset value of pc (R6). -/
def progBase : Nat := 0x200

/-- `PROG_MAX`: the longest program image (R6, R158). -/
def progMax : Nat := 3584

/-- `GLYPH_BASE`: address of the first glyph byte (R6, R58). -/
def glyphBase : Nat := 0x050

/-- `GLYPH_BYTES`: bytes per glyph (R6, R58). -/
def glyphBytes : Nat := 5

/-- `STACK_DEPTH`: call-stack entries (R6, R31). -/
def stackDepth : Nat := 16

/-- `QUIRK_SHIFT_USES_VY` of this hardware: `false`, the source's stated policy (R6, R110). It is the value after
reset of a field of State, so both settings are modelled (log 4). -/
def quirkShiftUsesVy : Bool := false

/-- `QUIRK_INDEX_INCREMENT`, which R6 leaves OPEN: the value after reset of a field of State (log 5).
DESIGN CHOICE `false`, the spec's suggested default; unsafe if a claim rested on it, and none does. -/
def quirkIndexIncrement : Bool := false

/-- The random input `rnd` of `Step` (R123, R182): "a free input of each step, any of the 256 values, under no law".
A free value: no body, applied to the number of draws made so far (log 3). -/
opaque rnd : Nat → Byte

end Sys2Proof.Config
end

