-- ==== Sys2Proof/Machine/State.lean ====
section
/-! DEFINITION. The machine's state as plain data: every element of 10_state.md's summary table, the construction
parameters of R6 and R58, and two fields of the model's own (the count of random draws, the order of the agents' next
operations). The state
after reset. The reasons a step can stop. What an unlisted memory address reads as stands in Machine/Memory.lean. -/

namespace Sys2Proof.Machine

/-- The parameters of R6 and R58 that are "selected at construction time" and constant for the life of the machine: the
two quirk switches and the glyph table. They are a field of State that no instruction and no operation but PowerOn writes,
so that a statement about every state is a statement about every setting of each (logs 4, 5 and 7). -/
structure Params where
  /-- `QUIRK_SHIFT_USES_VY` (R110). -/
  shiftUsesVy : Bool
  /-- `QUIRK_INDEX_INCREMENT` (R143). -/
  indexIncrement : Bool
  /-- `GLYPHS` (R58, D27): the 80 bytes PowerOn and Reset write at `GLYPH_BASE`. -/
  glyphs : Vector Byte 80
  deriving DecidableEq, Repr

/-- A fault record of R152: the fault's name and its information word. This is the machine's own FAULT register, not a
way for the model to stop. -/
inductive FaultRecord where
  /-- An access above 0xFFF, with the offending address (R153). -/
  | memoryFault (addr : Nat)
  /-- A word that is no instruction, with the raw word (R154). -/
  | unknownOpcode (w : Word)
  /-- A legacy machine-code call, with the raw word (R155). -/
  | unsupportedLegacyOpcode (w : Word)
  /-- A call with sixteen entries in use (R156). -/
  | callStackOverflow
  /-- A return with an empty stack (R157). -/
  | callStackUnderflow
  deriving DecidableEq, Repr

/-- The atomic operations of R12, by agent (R170). -/
inductive Operation where
  /-- The executor's `Step` (R76). -/
  | step
  /-- The timer's `Tick` (R175). -/
  | tick
  /-- The input host's `KeyClearAll` (R179). -/
  | keyClearAll
  /-- The input host's `KeySet(k)` (R180). -/
  | keySet (k : KeyIdx)
  /-- The presentation host's `TakeFrame` (R131). -/
  | takeFrame
  /-- The host's `Reset` (R190). -/
  | reset
  /-- The host's `PowerOn(image)`, with the parameters selected at construction (R186, R6, R58). -/
  | powerOn (params : Params) (image : List Byte)
  deriving DecidableEq, Repr

/-- Memory: the cells whose byte differs from what an unlisted address reads as, by rising address. The canonical form
is `Memory.wf` in Machine/Memory.lean. -/
abbrev Memory := List Host.Cell

/-- The framebuffer: 32 rows of 64 one-bit cells (R40); bit `x` of row `y` is the cell `FB[y][x]` (log 27). -/
abbrev Framebuffer := Vector (BitVec 64) 32

/-- The whole machine. -/
structure State where
  /-- `V[0..15]` (R20); `V[15]` is VF (R23). -/
  v : Vector Byte 16
  /-- `I` (R25). -/
  I : Word
  /-- `pc` (R27). -/
  pc : Word
  /-- `SP`, the number of stack entries in use, 0..16 (R31). -/
  sp : Fin 17
  /-- `STACK[0..15]` (R31). -/
  stack : Vector Word 16
  /-- `DT`, the delay timer (R34). -/
  dt : Byte
  /-- `ST`, the sound timer (R34). -/
  st : Byte
  /-- `FAULT` (R36); the machine is halted while it holds a record. -/
  fault : Option FaultRecord
  /-- `MEM[0..4095]` (R38). -/
  mem : Memory
  /-- `FB[0..31][0..63]` (R40). -/
  fb : Framebuffer
  /-- `DIRTY` (R40). -/
  dirty : Bool
  /-- `KEYS[0..15]` (R42). -/
  keys : Vector Bool 16
  /-- The construction parameters (R6, R58); configuration, by R44, that the model holds as a field. -/
  params : Params
  /-- How many random bytes have been drawn; the model's field (log 3). -/
  draws : Nat
  /-- The agents' next operations, oldest first; with none listed the executor acts. The model's field (log 2). -/
  schedule : List Operation
  deriving DecidableEq, Repr

/-- Why the model stops. The faults of R152 are not here: the spec describes what they leave, so they are next
states with `fault` set (log 1). -/
inductive Fault where
  /-- Raised by the operation PowerOn with an image longer than 3584 bytes: the loader's condition `ProgramTooLarge`,
  after which "the block is never started" (R158). No instruction raises it. Safe: the model stops where the spec says
  nothing runs (log 26). -/
  | programTooLarge
  deriving DecidableEq, Repr

/-- Why an instruction has no meaning in the model. -/
inductive Refusal where
  /-- Raised by an arm of `exec` for an instruction whose meaning is not written yet; no arm does. Safe. -/
  | notModelled (mnemonic : String)
  deriving DecidableEq, Repr

/-- The machine right after reset: PowerOn with an empty image (R186), the parameters at the values Config and
Machine/Glyphs.lean name (logs 4, 5 and 7), no random byte drawn (log 3), no operation of another agent pending (log 2), and nothing listed in
memory, so that every address reads as after PowerOn. -/
def State.reset : State where
  v := Vector.replicate 16 0x00#8
  I := 0x0000#16
  pc := 0x0200#16
  sp := 0
  stack := Vector.replicate 16 0x0000#16
  dt := 0x00#8
  st := 0x00#8
  fault := none
  mem := []
  fb := Vector.replicate 32 0#64
  dirty := false
  keys := Vector.replicate 16 false
  params :=
    { shiftUsesVy := Config.quirkShiftUsesVy
      indexIncrement := Config.quirkIndexIncrement
      glyphs := defaultGlyphs }
  draws := 0
  schedule := []

end Sys2Proof.Machine
end

