-- ==== Sys2Proof/Machine/Memory.lean ====
section
/-! DEFINITION. The memory bus (20_memory.md): the content an unlisted address reads as, reading and writing one byte
of the cell list, its canonical form, and the bounds-checked accesses `MemRead` and `MemWrite` of 00_scope.md R10 with
the byte sequences of R53 built from them. -/

namespace Sys2Proof.Machine

/-- What an unlisted address reads as: the content after PowerOn with an empty image and the default of `GLYPHS`, the
glyph table at `GLYPH_BASE` and 0x00 elsewhere (R38, R57, R58; log 21). A machine with other glyphs lists their bytes. -/
def initialByte (a : Nat) : Byte :=
  if a < Config.glyphBase then 0x00#8 else glyphTable.getD (a - Config.glyphBase) 0x00#8

/-- The byte at an address. -/
def Memory.peek : Memory → Nat → Byte
  | [], a => initialByte a
  | (b, w) :: m, a => if a = b then w else Memory.peek m a

/-- Set the byte at an address, keeping the canonical form: the entry goes where the addresses stay rising, and a byte
equal to what an unlisted address reads as is not listed. -/
def Memory.poke : Memory → Nat → Byte → Memory
  | [], a, v => if v = initialByte a then [] else [(a, v)]
  | (b, w) :: m, a, v =>
    if a < b then (if v = initialByte a then (b, w) :: m else (a, v) :: (b, w) :: m)
    else if a = b then (if v = initialByte a then m else (a, v) :: m)
    else (b, w) :: Memory.poke m a v

/-- The canonical form above an address: addresses strictly rising from `lo` and below 4096, no listed byte equal to
what the address reads as unlisted. -/
def Memory.wfFrom : Nat → Memory → Bool
  | _, [] => true
  | lo, (a, v) :: m =>
    decide (lo ≤ a) && decide (a < Config.memSize) && !decide (v = initialByte a) && Memory.wfFrom (a + 1) m

/-- The canonical form: equal memories are equal lists. -/
def Memory.wf (m : Memory) : Bool := Memory.wfFrom 0 m

/-- Set consecutive bytes, ascending, with no bounds check: what the host's operations do with the glyph table and the
image. -/
def Memory.pokeBytes : Memory → Nat → List Byte → Memory
  | m, _, [] => m
  | m, a, v :: vs => Memory.pokeBytes (Memory.poke m a v) (a + 1) vs

/-- `MemRead(addr, 1)` (R10, R51): the address is a natural number, never reduced before the check. -/
def memRead (m : Memory) (a : Nat) : Except FaultRecord Byte :=
  if a < Config.memSize then .ok (Memory.peek m a) else .error (.memoryFault a)

/-- `MemWrite(addr, 1, v)` (R10, R51). -/
def memWrite (m : Memory) (a : Nat) (v : Byte) : Except FaultRecord Memory :=
  if a < Config.memSize then .ok (Memory.poke m a v) else .error (.memoryFault a)

/-- Read `n` bytes at ascending addresses from `a` (R53, R55); the fault is that of the first address out of bounds. -/
def memReadBytes (m : Memory) : Nat → Nat → Except FaultRecord (List Byte)
  | _, 0 => .ok []
  | a, n + 1 =>
    match memRead m a with
    | .error f => .error f
    | .ok v =>
      match memReadBytes m (a + 1) n with
      | .error f => .error f
      | .ok vs => .ok (v :: vs)

/-- Write bytes at ascending addresses from `a` (R53, R55); the fault is that of the first address out of bounds, and
the caller then keeps the memory it had (R147). -/
def memWriteBytes : Memory → Nat → List Byte → Except FaultRecord Memory
  | m, _, [] => .ok m
  | m, a, v :: vs =>
    match memWrite m a v with
    | .error f => .error f
    | .ok m' => memWriteBytes m' (a + 1) vs

end Sys2Proof.Machine
end

