-- ==== Sys2Proof/Machine/Ops.lean ====
section
/-! DEFINITION. The named operations over the state: reading and writing registers, the pc (R28, R77), the call stack
(R31), taking a fault (R160), and completing a step that may fault. There is no return from a fault other than the
host's Reset and PowerOn (R164), which stand in Machine/Operations.lean. -/

namespace Sys2Proof.Machine

/-- The outcome of a step of this machine. -/
abbrev StepOutcome := Host.Outcome State Fault Refusal

/-! ## Updates, one per state element -/

/-- The value of register `V[r]` (R9, R20). -/
def State.reg (s : State) (r : RegIdx) : Byte := s.v.get r.toFin

/-- `V[r] <- b` (R9). Every register, VF among them, is an ordinary destination (R24). -/
def State.setReg (s : State) (r : RegIdx) (b : Byte) : State := { s with v := s.v.set r.toFin.val b r.toFin.isLt }

/-- `I <- a`. -/
def State.setI (s : State) (a : Word) : State := { s with I := a }

/-- `pc <- a`. -/
def State.setPc (s : State) (a : Word) : State := { s with pc := a }

/-- Replace the call stack's depth and entries. -/
def State.setCallStack (s : State) (sp : Fin 17) (stack : Vector Word 16) : State := { s with sp := sp, stack := stack }

/-- `DT <- b`. -/
def State.setDt (s : State) (b : Byte) : State := { s with dt := b }

/-- `ST <- b`. -/
def State.setSt (s : State) (b : Byte) : State := { s with st := b }

/-- Set or clear the fault latch. -/
def State.setFault (s : State) (f : Option FaultRecord) : State := { s with fault := f }

/-- Replace memory. -/
def State.setMem (s : State) (m : Memory) : State := { s with mem := m }

/-- Replace the framebuffer's cells and dirty flag. -/
def State.setDisplay (s : State) (fb : Framebuffer) (dirty : Bool) : State := { s with fb := fb, dirty := dirty }

/-- Replace the key latch. -/
def State.setKeys (s : State) (keys : Vector Bool 16) : State := { s with keys := keys }

/-- Count the random bytes drawn. -/
def State.setDraws (s : State) (n : Nat) : State := { s with draws := n }

/-- Replace the agents' next operations. -/
def State.setSchedule (s : State) (ops : List Operation) : State := { s with schedule := ops }

/-- The byte at a memory address. -/
def State.byte (s : State) (a : Nat) : Byte := Memory.peek s.mem a

/-- Stack entry `STACK[k]`. -/
def State.entry (s : State) (k : Fin 16) : Word := s.stack.get k

/-! ## The program counter -/

/-- The generic advance `pc <- pc + 2` (R77), `next` of R10. -/
def advance (s : State) : State := s.setPc (s.pc + 2#16)

/-- A conditional skip: `pc <- pc + 4` if the condition holds, else `pc <- pc + 2` (R28). -/
def skipIf (c : Bool) (s : State) : State := s.setPc (if c then s.pc + 4#16 else s.pc + 2#16)

/-! ## The call stack (R31) -/

/-- `push(a)`: overflow when sixteen entries are in use. -/
def push (a : Word) (s : State) : Except FaultRecord State :=
  if h : s.sp.val < Config.stackDepth then
    .ok (s.setCallStack ⟨s.sp.val + 1, Nat.succ_lt_succ h⟩ (s.stack.set s.sp.val a h))
  else .error .callStackOverflow

/-- `pop()`: underflow when the stack is empty; the popped entry is not cleared (R32). -/
def pop (s : State) : Except FaultRecord (Word × State) :=
  if h : 0 < s.sp.val then
    have hk : s.sp.val - 1 < 16 := by have := s.sp.isLt; omega
    .ok (s.stack[s.sp.val - 1], s.setCallStack ⟨s.sp.val - 1, by omega⟩ s.stack)
  else .error .callStackUnderflow

/-! ## Faults -/

/-- `raise F(info)` (R160, R161): every write of the step is discarded, so the state is the one before it but for
FAULT. Nothing else is saved, no handler is entered, and the machine is then halted (R162). -/
def raise (f : FaultRecord) (s : State) : StepOutcome := .next (s.setFault (some f))

/-- Complete an instruction whose accesses may raise: the new state, or the fault taken in the state `s` the step
began in (R160). -/
def complete (s : State) : Except FaultRecord State → StepOutcome
  | .ok t => .next t
  | .error f => raise f s

end Sys2Proof.Machine
end

