-- ==== Sys2Proof/Machine/Operands.lean ====
section
/-! DEFINITION. Operand forms: immediates and registers widened to 16 bits (30_encoding.md R78), the key a register
names (R135), the glyph a register names (R120), the shifted operand under its quirk (R110), the register range of
FX55 and FX65 (R144, R145), the index register after them (R143), and the lowest held key (R139). -/

namespace Sys2Proof.Machine

/-- `zext_16(NNN)` (R78). -/
def addrOperand (nnn : Addr12) : Word := nnn.setWidth 16

/-- `zext_16(V[r])` (R78). -/
def regOperand16 (s : State) (r : RegIdx) : Word := (s.reg r).setWidth 16

/-- The low nibble of a register, `V[r][3:0]`: the digit of FX29 (R120) and the key of EX9E and EXA1 (R135). That the
upper nibble is ignored is the spec's decision D12, D13 (log 14). -/
def lowNibble (s : State) (r : RegIdx) : Nibble := (s.reg r).extractLsb' 0 4

/-- The address of the glyph of a hexadecimal digit, `0x050 + digit*5` (R120). -/
def glyphAddress (digit : Nibble) : Word :=
  BitVec.ofNat 16 (Config.glyphBase + Config.glyphBytes * digit.toNat)

/-- The value a shift shifts (R110). -/
def shiftSource (s : State) (x y : RegIdx) : Byte := if s.params.shiftUsesVy then s.reg y else s.reg x

/-- Whether key `k` is held: `KEYS[k]` (R42). -/
def State.key (s : State) (k : KeyIdx) : Bool := s.keys.get k.toFin

/-- The lowest-indexed held key, if any (R139). -/
def lowestKey (s : State) : Option (Fin 16) := (List.finRange 16).find? fun k => s.keys.get k

/-- `V[0..X]` in ascending order, the bytes FX55 stores (R144). -/
def regRange (s : State) (x : RegIdx) : List Byte :=
  (List.range (x.toNat + 1)).map fun i => s.reg (BitVec.ofNat 4 i)

/-- Write consecutive registers from number `i` upward, ascending, as FX65 does (R145). -/
def setRegsFrom : Nat → List Byte → State → State
  | _, [], s => s
  | i, b :: bs, s => setRegsFrom (i + 1) bs (s.setReg (BitVec.ofNat 4 i) b)

/-- `I_after` of R143: `trunc_16(I + X + 1)` under QUIRK_INDEX_INCREMENT, else `I`. -/
def indexAfterTransfer (s : State) (x : RegIdx) : Word :=
  if s.params.indexIncrement then s.I + x.setWidth 16 + 1#16 else s.I

end Sys2Proof.Machine
end

