-- ==== Sys2Proof/Machine/ControlFlow.lean ====
section
/-! DEFINITION. 1NNN, 2NNN, 00EE, 3XNN, 4XNN, 5XY0, 9XY0 (40_control_flow.md). None takes the generic advance (R77);
targets are not checked (R90). -/

namespace Sys2Proof.Machine

/-- `JP NNN` (R91). -/
def execJp (nnn : Addr12) (s : State) : StepOutcome := .next (s.setPc (addrOperand nnn))

/-- `CALL NNN` (R92): pushes `pc + 2`. -/
def execCall (nnn : Addr12) (s : State) : StepOutcome :=
  complete s (match push (s.pc + 2#16) s with
    | .ok t => .ok (t.setPc (addrOperand nnn))
    | .error f => .error f)

/-- `RET` (R93). -/
def execRet (s : State) : StepOutcome :=
  complete s (match pop s with
    | .ok (a, t) => .ok (t.setPc a)
    | .error f => .error f)

/-- `SE Vx, NN` (R94). -/
def execSeImm (x : RegIdx) (nn : Byte) (s : State) : StepOutcome := .next (skipIf (s.reg x == nn) s)

/-- `SNE Vx, NN` (R95). -/
def execSneImm (x : RegIdx) (nn : Byte) (s : State) : StepOutcome := .next (skipIf (s.reg x != nn) s)

/-- `SE Vx, Vy` (R96). -/
def execSeReg (x y : RegIdx) (s : State) : StepOutcome := .next (skipIf (s.reg x == s.reg y) s)

/-- `SNE Vx, Vy` (R97). -/
def execSneReg (x y : RegIdx) (s : State) : StepOutcome := .next (skipIf (s.reg x != s.reg y) s)

end Sys2Proof.Machine
end

