-- ==== Sys2Proof/Machine/Flags.lean ====
section
/-! DEFINITION. The flag computations of 41_register_alu.md R107 and the write of VF. A flag is always exactly 0x00 or
0x01 and fills the whole register VF (R23). -/

namespace Sys2Proof.Machine

/-- A flag as the byte VF holds (R23). -/
def flagByte (b : Bool) : Byte := if b then 0x01#8 else 0x00#8

/-- Carry of an addition: the exact sum exceeds 255 (R106, R107). -/
def carryOf (a b : Byte) : Bool := decide (a.toNat + b.toNat > 255)

/-- No borrow in `a - b`: `a >= b` on the unsigned operands (R107, R108, R109). -/
def noBorrowOf (a b : Byte) : Bool := decide (a.toNat ≥ b.toNat)

/-- The bit a right shift by one shifts out (R111). -/
def shiftedOutRight (a : Byte) : Bool := a.getLsbD 0

/-- The bit a left shift by one shifts out (R112). -/
def shiftedOutLeft (a : Byte) : Bool := a.getLsbD 7

/-- Write a result and then the flag: with X = F the flag is what VF holds after the step (R11, the spec's decision D9,
log 11). -/
def writeWithFlag (x : RegIdx) (result : Byte) (flag : Bool) (s : State) : State :=
  (s.setReg x result).setReg VF (flagByte flag)

end Sys2Proof.Machine
end

