-- ==== Sys2Proof/Machine/Framebuffer.lean ====
section
/-! DEFINITION. The framebuffer unit (43_display.md R126, R127): `clear`, `blit`, and the copy `take_frame` returns. -/

namespace Sys2Proof.Machine

/-- Cell `FB[y][x]` (R40). -/
def cell (fb : Framebuffer) (x : Fin 64) (y : Fin 32) : Bool := (fb.get y).getLsbD x.val

/-- All cells 0. -/
def blankFramebuffer : Framebuffer := Vector.replicate 32 0#64

/-- The cells of one framebuffer row that one sprite row touches when drawn from column `x0`: sprite column `c` is bit
`7 - c` of the byte (PRESUMED, log 8) and lands on cell `x0 + c`; what would lie at 64 or beyond is clipped, which here
is the shift dropping it (R127). -/
def spriteMask (x0 : Nat) (b : Byte) : BitVec 64 := b.reverse.setWidth 64 <<< x0

/-- What `blit` has produced so far: the cells, the collision bit, and whether a cell has changed. -/
structure Drawing where
  fb : Framebuffer
  collision : Bool
  changed : Bool
  deriving DecidableEq, Repr

/-- Draw one sprite row on framebuffer row `y`: XOR the touched cells, note a collision when a touched cell was 1, and a
change when any cell is touched. A row at 32 or below is clipped (R127). -/
def blitRow (x0 y : Nat) (b : Byte) (d : Drawing) : Drawing :=
  if h : y < 32 then
    { fb := d.fb.set y (d.fb[y] ^^^ spriteMask x0 b) h
      collision := d.collision || (d.fb[y] &&& spriteMask x0 b) != 0#64
      changed := d.changed || spriteMask x0 b != 0#64 }
  else d

/-- The sprite's rows top to bottom from row `y` (R127). -/
def blitRows (x0 : Nat) : Nat → List Byte → Drawing → Drawing
  | _, [], d => d
  | y, b :: bs, d => blitRows x0 (y + 1) bs (blitRow x0 y b d)

/-- `blit(x0, y0, rows)` (R127). -/
def blit (x0 y0 : Nat) (rows : List Byte) (fb : Framebuffer) : Drawing :=
  blitRows x0 y0 rows { fb := fb, collision := false, changed := false }

/-- The frame `take_frame` returns: the 2048 cells, row-major (R131, R40). -/
def frameOf (fb : Framebuffer) : List Bool :=
  (List.finRange 32).flatMap fun y => (List.finRange 64).map fun x => cell fb x y

end Sys2Proof.Machine
end

