-- ==== Sys2Proof/Machine/Display.lean ====
section
/-! DEFINITION. 00E0 and DXYN (43_display.md). Both take the generic advance. -/

namespace Sys2Proof.Machine

/-- `CLS` (R125): DIRTY is set whatever the grid held. -/
def execCls (s : State) : StepOutcome := .next (advance (s.setDisplay blankFramebuffer true))

/-- `DRW Vx, Vy, N` (R128): start position modulo the grid, all `N` bytes read first, XOR with clipping, VF the
collision bit; DIRTY is set when a cell changes (log 18). -/
def execDrw (x y : RegIdx) (n : Nibble) (s : State) : StepOutcome :=
  complete s (match memReadBytes s.mem s.I.toNat n.toNat with
    | .error f => .error f
    | .ok rows =>
      let d := blit ((s.reg x).toNat % 64) ((s.reg y).toNat % 32) rows s.fb
      .ok (advance ((s.setDisplay d.fb (s.dirty || d.changed)).setReg VF (flagByte d.collision))))

end Sys2Proof.Machine
end

