-- ==== Sys2Proof/Machine/IndexJumpRandom.lean ====
section
/-! DEFINITION. ANNN, FX1E, FX29, BNNN, CXNN (42_index_jump_random.md). None accesses memory or faults. -/

namespace Sys2Proof.Machine

/-- `LD I, NNN` (R116). -/
def execLdI (nnn : Addr12) (s : State) : StepOutcome := .next (advance (s.setI (addrOperand nnn)))

/-- `ADD I, Vx` (R118): modulo 2^16, no flag (log 12). -/
def execAddI (x : RegIdx) (s : State) : StepOutcome := .next (advance (s.setI (s.I + regOperand16 s x)))

/-- `LD F, Vx` (R120): the digit is the low nibble (log 14). -/
def execLdF (x : RegIdx) (s : State) : StepOutcome := .next (advance (s.setI (glyphAddress (lowNibble s x))))

/-- `JP V0, NNN` (R122): 16 bits, no mask. -/
def execJpV0 (nnn : Addr12) (s : State) : StepOutcome :=
  .next (s.setPc (addrOperand nnn + regOperand16 s 0x0#4))

/-- `RND Vx, NN` (R123): the byte drawn is the free value of this draw, and the next draw is another one (log 3). -/
def execRnd (x : RegIdx) (nn : Byte) (s : State) : StepOutcome :=
  .next (advance ((s.setReg x (Config.rnd s.draws &&& nn)).setDraws (s.draws + 1)))

end Sys2Proof.Machine
end

