-- ==== Sys2Proof/Machine/KeysTimers.lean ====
section
/-! DEFINITION. EX9E, EXA1, FX07, FX15, FX18, FX0A (44_keys_and_timers.md). None writes VF as a flag, accesses memory or
faults. The pairing of FX07, FX15, FX18 with the three timer operations is the spec's, from general knowledge (log 9). -/

namespace Sys2Proof.Machine

/-- `SKP Vx` (R133). -/
def execSkp (x : RegIdx) (s : State) : StepOutcome := .next (skipIf (s.key (lowNibble s x)) s)

/-- `SKNP Vx` (R134). -/
def execSknp (x : RegIdx) (s : State) : StepOutcome := .next (skipIf (!s.key (lowNibble s x)) s)

/-- `LD Vx, DT` (R136). -/
def execLdVxDt (x : RegIdx) (s : State) : StepOutcome := .next (advance (s.setReg x s.dt))

/-- `LD DT, Vx` (R137). -/
def execLdDtVx (x : RegIdx) (s : State) : StepOutcome := .next (advance (s.setDt (s.reg x)))

/-- `LD ST, Vx` (R138). -/
def execLdStVx (x : RegIdx) (s : State) : StepOutcome := .next (advance (s.setSt (s.reg x)))

/-- `LD Vx, K` (R139): with no key held the step completes and changes nothing, so the next step runs it again; there
is no waiting state (R45) and no wait for release (log 19). -/
def execLdVxK (x : RegIdx) (s : State) : StepOutcome :=
  match lowestKey s with
  | none => .next s
  | some k => .next (advance (s.setReg x (BitVec.ofNat 8 k.val)))

end Sys2Proof.Machine
end

