-- ==== Sys2Proof/Machine/Legacy.lean ====
section
/-! DEFINITION. 0NNN (46_legacy_and_unknown.md). -/

namespace Sys2Proof.Machine

/-- `SYS NNN` (R148): always takes the fault `UnsupportedLegacyOpcode` with the instruction's word. -/
def execSys (nnn : Addr12) (s : State) : StepOutcome := raise (.unsupportedLegacyOpcode (0x0#4 ++ nnn)) s

end Sys2Proof.Machine
end

