-- ==== Sys2Proof/Machine/MemoryTransfer.lean ====
section
/-! DEFINITION. FX33, FX55, FX65 (45_memory_transfer.md). All take the generic advance; when any address is above 0xFFF
nothing is changed but FAULT, which records the lowest such address (R147). -/

namespace Sys2Proof.Machine

/-- The decimal digits of a byte, hundreds, tens, ones (R142). -/
def bcdDigits (v : Byte) : List Byte := [v / 100#8, v / 10#8 % 10#8, v % 10#8]

/-- `LD B, Vx` (R142). -/
def execLdB (x : RegIdx) (s : State) : StepOutcome :=
  complete s (match memWriteBytes s.mem s.I.toNat (bcdDigits (s.reg x)) with
    | .error f => .error f
    | .ok m => .ok (advance (s.setMem m)))

/-- `LD [I], Vx` (R144). -/
def execStoreRegs (x : RegIdx) (s : State) : StepOutcome :=
  complete s (match memWriteBytes s.mem s.I.toNat (regRange s x) with
    | .error f => .error f
    | .ok m => .ok (advance ((s.setMem m).setI (indexAfterTransfer s x))))

/-- `LD Vx, [I]` (R145). -/
def execLoadRegs (x : RegIdx) (s : State) : StepOutcome :=
  complete s (match memReadBytes s.mem s.I.toNat (x.toNat + 1) with
    | .error f => .error f
    | .ok bs => .ok (advance ((setRegsFrom 0 bs s).setI (indexAfterTransfer s x))))

end Sys2Proof.Machine
end

