-- ==== Sys2Proof/Machine/RegisterAlu.lean ====
section
/-! DEFINITION. 6XNN, 7XNN, 8XY0 to 8XY7, 8XYE (41_register_alu.md). All take the generic advance; none faults. -/

namespace Sys2Proof.Machine

/-- `LD Vx, NN` (R100). -/
def execLdImm (x : RegIdx) (nn : Byte) (s : State) : StepOutcome := .next (advance (s.setReg x nn))

/-- `ADD Vx, NN` (R101): no flag; wraps (R107, log 12). -/
def execAddImm (x : RegIdx) (nn : Byte) (s : State) : StepOutcome := .next (advance (s.setReg x (s.reg x + nn)))

/-- `LD Vx, Vy` (R102). -/
def execLdReg (x y : RegIdx) (s : State) : StepOutcome := .next (advance (s.setReg x (s.reg y)))

/-- `OR Vx, Vy` (R103): no flag (log 13). -/
def execOrReg (x y : RegIdx) (s : State) : StepOutcome := .next (advance (s.setReg x (s.reg x ||| s.reg y)))

/-- `AND Vx, Vy` (R104): no flag (log 13). -/
def execAndReg (x y : RegIdx) (s : State) : StepOutcome := .next (advance (s.setReg x (s.reg x &&& s.reg y)))

/-- `XOR Vx, Vy` (R105): no flag (log 13). -/
def execXorReg (x y : RegIdx) (s : State) : StepOutcome := .next (advance (s.setReg x (s.reg x ^^^ s.reg y)))

/-- `ADD Vx, Vy` (R106): VF is the carry. -/
def execAddReg (x y : RegIdx) (s : State) : StepOutcome :=
  .next (advance (writeWithFlag x (s.reg x + s.reg y) (carryOf (s.reg x) (s.reg y)) s))

/-- `SUB Vx, Vy` (R108): VF is 1 when no borrow occurred. -/
def execSubReg (x y : RegIdx) (s : State) : StepOutcome :=
  .next (advance (writeWithFlag x (s.reg x - s.reg y) (noBorrowOf (s.reg x) (s.reg y)) s))

/-- `SUBN Vx, Vy` (R109): `Vy - Vx` into `Vx`. -/
def execSubnReg (x y : RegIdx) (s : State) : StepOutcome :=
  .next (advance (writeWithFlag x (s.reg y - s.reg x) (noBorrowOf (s.reg y) (s.reg x)) s))

/-- `SHR Vx {, Vy}` (R111): logical, by one, under the shift quirk (R110). -/
def execShr (x y : RegIdx) (s : State) : StepOutcome :=
  .next (advance (writeWithFlag x (shiftSource s x y >>> 1) (shiftedOutRight (shiftSource s x y)) s))

/-- `SHL Vx {, Vy}` (R112): by one, under the shift quirk (R110). -/
def execShl (x y : RegIdx) (s : State) : StepOutcome :=
  .next (advance (writeWithFlag x (shiftSource s x y <<< 1) (shiftedOutLeft (shiftSource s x y)) s))

end Sys2Proof.Machine
end

