-- ==== Sys2Proof/Machine/Cycle.lean ====
section
/-! DEFINITION. The step cycle of 30_encoding.md R76: fetch, decode, dispatch. -/

namespace Sys2Proof.Machine

/-- Fetch the word at pc: two byte reads, the byte at `pc` first, composed big-endian; `pc + 1` is formed as a natural
number before the check (R52, R76, R163). -/
def fetch (s : State) : Except FaultRecord Word :=
  match memRead s.mem s.pc.toNat with
  | .error f => .error f
  | .ok hi =>
    match memRead s.mem (s.pc.toNat + 1) with
    | .error f => .error f
    | .ok lo => .ok (wordOfBytes hi lo)

/-- Execute a fetched word; a word that is no instruction takes the fault `UnknownOpcode` (R149, R154). -/
def executeWord (w : Word) (s : State) : StepOutcome :=
  match decodeWord w with
  | .error _ => raise (.unknownOpcode w) s
  | .ok i => exec i s

/-- The operation `Step` (R76): nothing while halted (R162); a fetch out of bounds takes `MemoryFault` (R153). -/
def executorStep (s : State) : StepOutcome :=
  match s.fault with
  | some _ => .next s
  | none =>
    match fetch s with
    | .error f => raise f s
    | .ok w => executeWord w s

end Sys2Proof.Machine
end

