-- ==== Sys2Proof/Machine/Operations.lean ====
section
/-! DEFINITION. The operations of the other agents (00_scope.md R12): Tick, KeyClearAll, KeySet, TakeFrame, Reset,
PowerOn; the outputs the host reads; and the performing of one operation of the total order (60_exceptions.md R170).
None of these operations touches the model's own fields `draws` and `schedule`. -/

namespace Sys2Proof.Machine

/-! ## Outputs -/

/-- `sound_active = (ST != 0)` (R35, R177). -/
def soundActive (s : State) : Bool := s.st != 0x00#8

/-- The code of the fault latch (R152). -/
def faultCode (s : State) : Nat :=
  match s.fault with
  | none => 0
  | some (.memoryFault _) => 1
  | some (.unknownOpcode _) => 2
  | some (.unsupportedLegacyOpcode _) => 3
  | some .callStackOverflow => 4
  | some .callStackUnderflow => 5

/-- The information word of the fault latch, where its record has one (R152). -/
def faultInfo (s : State) : Option Nat :=
  match s.fault with
  | some (.memoryFault a) => some a
  | some (.unknownOpcode w) => some w.toNat
  | some (.unsupportedLegacyOpcode w) => some w.toNat
  | some .callStackOverflow => none
  | some .callStackUnderflow => none
  | none => none

/-! ## Timers -/

/-- One counter's decrement, saturating at zero (R175). -/
def countDown (b : Byte) : Byte := if b = 0x00#8 then 0x00#8 else b - 1#8

/-- What `Tick` does to the state: both counters in one operation, nothing while halted (R175, R162). -/
def tickState (s : State) : State :=
  match s.fault with
  | some _ => s
  | none => (s.setDt (countDown s.dt)).setSt (countDown s.st)

/-- `Tick` (R175): the state after it and the boolean it returns, ST not zero after the decrement. -/
def tick (s : State) : State × Bool := (tickState s, soundActive (tickState s))

/-! ## Input latch -/

/-- `KeyClearAll` (R179). -/
def keyClearAll (s : State) : State := s.setKeys (Vector.replicate 16 false)

/-- `KeySet(k)` (R180). -/
def keySet (k : KeyIdx) (s : State) : State := s.setKeys (s.keys.set k.toFin.val true k.toFin.isLt)

/-! ## Presentation -/

/-- `TakeFrame` (R131): returns the cells and clears DIRTY, for either value of DIRTY (log 24). -/
def takeFrame (s : State) : State × List Bool := (s.setDisplay s.fb false, frameOf s.fb)

/-! ## Reset and power-on -/

/-- The elements that PowerOn and Reset both set: registers, timers, stack, framebuffer and DIRTY zeroed, pc rewound,
FAULT cleared (R186, R190, R193, R194). -/
def initialise (s : State) : State :=
  { s with
    v := Vector.replicate 16 0x00#8
    I := 0x0000#16
    pc := BitVec.ofNat 16 Config.progBase
    sp := 0
    stack := Vector.replicate 16 0x0000#16
    dt := 0x00#8
    st := 0x00#8
    fault := none
    fb := blankFramebuffer
    dirty := false }

/-- `Reset` (R190): the glyph table is rewritten, every other byte and the key latch keep their values (R192, R193;
log 22). -/
def hostReset (s : State) : State :=
  (initialise s).setMem (Memory.pokeBytes s.mem Config.glyphBase s.params.glyphs.toList)

/-- The state `PowerOn(image)` constructs (R186): the glyph table, the image from 0x200, every other byte 0x00, no key
held; the parameters, the glyph table among them, are selected here (R6, R58). -/
def poweredOn (params : Params) (image : List Byte) (s : State) : State :=
  { initialise s with
    mem := Memory.pokeBytes (Memory.pokeBytes [] Config.glyphBase params.glyphs.toList) Config.progBase image
    keys := Vector.replicate 16 false
    params := params }

/-- `PowerOn(image)` (R186): an image longer than 3584 bytes is refused by the loader and nothing runs (R158). -/
def powerOn (params : Params) (image : List Byte) (s : State) : StepOutcome :=
  if image.length ≤ Config.progMax then .next (poweredOn params image s) else .fault .programTooLarge

/-! ## The total order -/

/-- Perform one operation (R12, R170). -/
def perform (op : Operation) (s : State) : StepOutcome :=
  match op with
  | .step => executorStep s
  | .tick => .next (tick s).1
  | .keyClearAll => .next (keyClearAll s)
  | .keySet k => .next (keySet k s)
  | .takeFrame => .next (takeFrame s).1
  | .reset => .next (hostReset s)
  | .powerOn params image => powerOn params image s

end Sys2Proof.Machine
end

