-- ==== Sys2Proof/Machine/Step.lean ====
section
/-! DEFINITION. One step of the model: the next operation of the total order (60_exceptions.md R170, R171). -/

namespace Sys2Proof.Machine

/-- Perform the next operation. While the schedule names operations, they are performed oldest first, one a step; with
none left the executor performs its `Step` (log 2). -/
def step (s : State) : Host.Outcome State Fault Refusal :=
  match s.schedule with
  | [] => perform .step s
  | op :: ops => perform op (s.setSchedule ops)

/-- Where the next instruction can be fetched from: pc, or PROG_BASE where no whole word lies at pc (R29, R76). -/
def State.fetchAddress (s : State) : Word :=
  if s.pc.toNat < 0xFFF then s.pc else BitVec.ofNat 16 Config.progBase

/-- The state with an instruction word stored where the next step fetches it, and nothing in the way of that step: not
halted, no other agent's operation before it (log 25). -/
def State.withFetchWord (s : State) (nbits w : Nat) : State :=
  { s with
    pc := s.fetchAddress
    fault := none
    schedule := []
    mem := Memory.pokeBytes s.mem s.fetchAddress.toNat
      [(bytesOfWord (tableWord nbits w)).1, (bytesOfWord (tableWord nbits w)).2] }

end Sys2Proof.Machine
end

