-- ==== Sys2Proof/Safety.lean ====
section
/-! DEFINITION. The terms in which statements speak of runs: the invariant of the machine, what an instruction leaves
unchanged, an outcome that is a next state, and running a sequence of operations. -/

namespace Sys2Proof.Machine

/-- The outcome is a next state, and that state has the property. -/
def Answers (o : StepOutcome) (P : State → Prop) : Prop := ∃ t, o = .next t ∧ P t

/-- The parts of the state other than the general registers and pc, each as one thing an instruction may change. -/
inductive Part where
  | index | callStack | delayTimer | soundTimer | faultLatch | memory | screen | dirtyFlag | keyLatch | drawCount
  deriving DecidableEq, Repr

/-- A part has the same content in two states; memory is compared byte by byte, at every address. -/
def Part.kept (p : Part) (s t : State) : Prop :=
  match p with
  | .index => t.I = s.I
  | .callStack => t.sp = s.sp ∧ t.stack = s.stack
  | .delayTimer => t.dt = s.dt
  | .soundTimer => t.st = s.st
  | .faultLatch => t.fault = s.fault
  | .memory => ∀ a, t.byte a = s.byte a
  | .screen => t.fb = s.fb
  | .dirtyFlag => t.dirty = s.dirty
  | .keyLatch => t.keys = s.keys
  | .drawCount => t.draws = s.draws

/-- The frame: every general register outside `regs` and every part outside `parts` is unchanged, and so are the
construction parameters (quirk switches and glyph table) and the schedule. The pc is not spoken of. -/
def FrameBut (regs : List RegIdx) (parts : List Part) (s t : State) : Prop :=
  (∀ r, r ∉ regs → t.reg r = s.reg r) ∧ (∀ p, p ∉ parts → p.kept s t) ∧ t.params = s.params ∧
    t.schedule = s.schedule

/-- The record in FAULT is one the machine can have latched in this state: an address above memory that 17 bits hold
(R152, R153), a word that is unknown (R154) or legacy (R155), a stack fault at the stack's end (R156, R157). -/
def FaultLegal (s : State) : Prop :=
  match s.fault with
  | none => True
  | some (.memoryFault a) => 0xFFF < a ∧ a < 2 ^ 17
  | some (.unknownOpcode w) => decodeWord w = .error (.unknownOpcode w)
  | some (.unsupportedLegacyOpcode w) => ∃ nnn, decodeWord w = .ok (.sys nnn)
  | some .callStackOverflow => s.sp.val = 16
  | some .callStackUnderflow => s.sp.val = 0

/-- The invariant: memory in canonical form, pc never above 0x10FE and a return address in use never above 0x1000
(R29), and a legal fault record. (That SP is 0..16 (R31) and that indices fit is in the types.) -/
structure Inv (s : State) : Prop where
  memory : Memory.wf s.mem = true
  pc : s.pc.toNat ≤ 0x10FE
  returns : ∀ k : Fin 16, k.val < s.sp.val → (s.entry k).toNat ≤ 0x1000
  fault : FaultLegal s

/-- A run has not gone wrong: no fault is latched (R162). -/
def Running (s : State) : Prop := s.fault = none

/-- Perform a sequence of operations of the agents, in order, stopping where the model stops. -/
def performAll : List Operation → State → StepOutcome
  | [], s => .next s
  | op :: ops, s =>
    match perform op s with
    | .next t => performAll ops t
    | .fault f => .fault f
    | .refused r => .refused r

/-- The state after `n` ticks (R175). -/
def ticks : Nat → State → State
  | 0, s => s
  | n + 1, s => ticks n (tick s).1

end Sys2Proof.Machine
end

