-- ==== Sys2Proof/Certificates/Slice0/Obligations.lean ====
section
/-! DEFINITION. What is claimed of the model, for the provers. Each statement's docstring names the rule of spec/ it
formalises. Where a clause rests on a decision of the spec itself (92_eei_decisions.md), on what the spec marks as
general knowledge, or on a choice of the model, the docstring says so and names the log entry. -/

namespace Sys2Proof.Machine

/-! ## Terms used in the statements -/

/-- The registers an instruction may write (10_state.md R22, R23): its destination, the range of FX65, and VF for the six
flag writers. -/
def destinations : Instr → List RegIdx
  | .ldImm x _ | .addImm x _ | .ldReg x _ | .orReg x _ | .andReg x _ | .xorReg x _ | .rnd x _ | .ldVxDt x
  | .ldVxK x => [x]
  | .addReg x _ | .subReg x _ | .shr x _ | .subnReg x _ | .shl x _ => [x, VF]
  | .drw _ _ _ => [VF]
  | .loadRegs x => (List.range (x.toNat + 1)).map (BitVec.ofNat 4)
  | .cls | .ret | .sys _ | .jp _ | .call _ | .seImm _ _ | .sneImm _ _ | .seReg _ _ | .sneReg _ _ | .ldI _ | .jpV0 _
  | .skp _ | .sknp _ | .ldDtVx _ | .ldStVx _ | .addI _ | .ldF _ | .ldB _ | .storeRegs _ => []

/-- The other parts of the state an instruction may change: what its own rule names, and FAULT where R159 lists a fault
for it. -/
def partsWritten : Instr → List Part
  | .cls => [.screen, .dirtyFlag]
  | .drw _ _ _ => [.screen, .dirtyFlag, .faultLatch]
  | .call _ | .ret => [.callStack, .faultLatch]
  | .sys _ => [.faultLatch]
  | .ldI _ | .addI _ | .ldF _ => [.index]
  | .rnd _ _ => [.drawCount]
  | .ldDtVx _ => [.delayTimer]
  | .ldStVx _ => [.soundTimer]
  | .ldB _ => [.memory, .faultLatch]
  | .storeRegs _ => [.memory, .index, .faultLatch]
  | .loadRegs _ => [.index, .faultLatch]
  | .jp _ | .jpV0 _ | .seImm _ _ | .sneImm _ _ | .seReg _ _ | .sneReg _ _ | .ldImm _ _ | .addImm _ _ | .ldReg _ _
  | .orReg _ _ | .andReg _ _ | .xorReg _ _ | .addReg _ _ | .subReg _ _ | .shr _ _ | .subnReg _ _ | .shl _ _
  | .skp _ | .sknp _ | .ldVxDt _ | .ldVxK _ => []

/-- The eleven instructions that set pc themselves (30_encoding.md R77). -/
def setsOwnPc : Instr → Bool
  | .jp _ | .call _ | .ret | .jpV0 _ | .seImm _ _ | .sneImm _ _ | .seReg _ _ | .sneReg _ _ | .skp _ | .sknp _
  | .ldVxK _ => true
  | .cls | .sys _ | .ldImm _ _ | .addImm _ _ | .ldReg _ _ | .orReg _ _ | .andReg _ _ | .xorReg _ _ | .addReg _ _
  | .subReg _ _ | .shr _ _ | .subnReg _ _ | .shl _ _ | .ldI _ | .rnd _ _ | .drw _ _ _ | .ldVxDt _ | .ldDtVx _
  | .ldStVx _ | .addI _ | .ldF _ | .ldB _ | .storeRegs _ | .loadRegs _ => false

/-- The bytes an instruction accesses beyond its fetch: the count, from address `I` (20_memory.md R55). -/
def accessLength : Instr → Nat
  | .drw _ _ n => n.toNat
  | .ldB _ => 3
  | .storeRegs x | .loadRegs x => x.toNat + 1
  | .cls | .ret | .sys _ | .jp _ | .call _ | .seImm _ _ | .sneImm _ _ | .seReg _ _ | .ldImm _ _ | .addImm _ _
  | .ldReg _ _ | .orReg _ _ | .andReg _ _ | .xorReg _ _ | .addReg _ _ | .subReg _ _ | .shr _ _ | .subnReg _ _
  | .shl _ _ | .sneReg _ _ | .ldI _ | .jpV0 _ | .rnd _ _ | .skp _ | .sknp _ | .ldVxDt _ | .ldVxK _ | .ldDtVx _
  | .ldStVx _ | .addI _ | .ldF _ => 0

/-- The byte at an address after an instruction that runs inside memory: the decimal digit FX33 or the register FX55 stores
there, else the byte before (45_memory_transfer.md R142, R144). -/
def byteAfter (i : Instr) (s : State) (a : Nat) : Byte :=
  match i with
  | .ldB x =>
    if s.I.toNat ≤ a ∧ a < s.I.toNat + 3 then
      BitVec.ofNat 8 ((s.reg x).toNat / 10 ^ (2 - (a - s.I.toNat)) % 10) else s.byte a
  | .storeRegs x =>
    if s.I.toNat ≤ a ∧ a ≤ s.I.toNat + x.toNat then s.reg (BitVec.ofNat 4 (a - s.I.toNat)) else s.byte a
  | .cls | .ret | .sys _ | .jp _ | .call _ | .seImm _ _ | .sneImm _ _ | .seReg _ _ | .ldImm _ _ | .addImm _ _
  | .ldReg _ _ | .orReg _ _ | .andReg _ _ | .xorReg _ _ | .addReg _ _ | .subReg _ _ | .shr _ _ | .subnReg _ _
  | .shl _ _ | .sneReg _ _ | .ldI _ | .jpV0 _ | .rnd _ _ | .drw _ _ _ | .skp _ | .sknp _ | .ldVxDt _ | .ldVxK _
  | .ldDtVx _ | .ldStVx _ | .addI _ | .ldF _ | .loadRegs _ => s.byte a

/-- The sprite of height `n` at `I`, drawn from `(x0, y0)`, has a 1 bit on the cell `(px, py)`: some row `r` and column
`c` land there, column `c` being bit `7 - c` of the row's byte (43_display.md R127; the bit order is log 8). -/
def SpriteCovers (s : State) (x0 y0 n : Nat) (px : Fin 64) (py : Fin 32) : Prop :=
  ∃ r c : Nat, r < n ∧ c < 8 ∧ py.val = y0 + r ∧ px.val = x0 + c ∧
    (s.byte (s.I.toNat + r)).getLsbD (7 - c) = true

/-- The word in memory at pc. -/
def wordAtPc (s : State) : Word := wordOfBytes (s.byte s.pc.toNat) (s.byte (s.pc.toNat + 1))

/-- The value shifted by 8XY6 and 8XYE (41_register_alu.md R110). -/
def ShiftOperand (s : State) (x y : RegIdx) (a : Byte) : Prop :=
  (s.params.shiftUsesVy = true → a = s.reg y) ∧ (s.params.shiftUsesVy = false → a = s.reg x)

/-- The value of `I` after a bulk transfer (45_memory_transfer.md R143). -/
def IndexAfter (s t : State) (x : RegIdx) : Prop :=
  (s.params.indexIncrement = true → t.I.toNat = (s.I.toNat + x.toNat + 1) % 65536) ∧
    (s.params.indexIncrement = false → t.I = s.I)

/-- An instruction that writes register `x` and the flag VF and nothing else but pc: the flag is what VF holds after it
(so with `x = VF` the result is lost), the result stands in any other `x`, pc advances. -/
def ResultAndFlag (x : RegIdx) (result : Nat) (flag : Bool) (s t : State) : Prop :=
  t.reg VF = (if flag then 0x01#8 else 0x00#8) ∧ (x ≠ VF → (t.reg x).toNat = result) ∧ t.pc = s.pc + 2#16 ∧
    FrameBut [x, VF] [] s t

/-- What PowerOn and Reset both leave, memory and latch apart (70_reset_and_hazards.md R186, R190). -/
def Rewound (t : State) : Prop :=
  (∀ r, t.reg r = 0x00#8) ∧ t.I = 0x0000#16 ∧ t.pc = 0x0200#16 ∧ t.sp.val = 0 ∧ (∀ k, t.entry k = 0x0000#16) ∧
    t.dt = 0x00#8 ∧ t.st = 0x00#8 ∧ t.fault = none ∧ (∀ x y, cell t.fb x y = false) ∧ t.dirty = false

end Sys2Proof.Machine

open Sys2Proof Sys2Proof.Machine

/-! ## Encoding -/

/-- Decoding the encoding of a well-formed instruction gives it back, every operand at every value (30_encoding.md R73,
R74; patterns: log 6). -/
def Obligations.DecodeInvertsEncode : Prop :=
  ∀ i : Instr, i.wellFormed = true → decodeWord (encode i) = .ok i

/-- A word that decodes has one meaning: it is the encoding of what it decodes to, which is well-formed (R73, R74). -/
def Obligations.EncodeInvertsDecode : Prop :=
  ∀ (w : Word) (i : Instr), decodeWord w = .ok i → encode i = w ∧ i.wellFormed = true

/-- The words rejected by the decoder are exactly those of R79's table, and each rejection carries the word (R79, R154;
exact matching of sub-opcodes is the spec's decision D5, log 10). -/
def Obligations.RejectedWordsAreThoseOfTheTable : Prop :=
  ∀ w : Word,
    ((∃ e, decodeWord w = .error e) ↔
      w = 0x0000#16 ∨
      (fieldOp w = 0x5#4 ∧ fieldN w ≠ 0x0#4) ∨
      (fieldOp w = 0x8#4 ∧ fieldN w ∈ [0x8#4, 0x9#4, 0xA#4, 0xB#4, 0xC#4, 0xD#4, 0xF#4]) ∨
      (fieldOp w = 0x9#4 ∧ fieldN w ≠ 0x0#4) ∨
      (fieldOp w = 0xE#4 ∧ fieldNN w ∉ [0x9E#8, 0xA1#8]) ∨
      (fieldOp w = 0xF#4 ∧ fieldNN w ∉
        [0x07#8, 0x0A#8, 0x15#8, 0x18#8, 0x1E#8, 0x29#8, 0x33#8, 0x55#8, 0x65#8])) ∧
    ∀ e, decodeWord w = .error e → e = .unknownOpcode w

/-- The words that the instruction rules of files 40 to 46 write out in their examples, at least one for each row of R73,
decode to the instructions they stand for or are unknown (R73, R74, R149), and the bytes of one are composed high byte first
(R52). Twenty-five of the patterns are the spec's own, from general knowledge (D4; PRESUMED, log 6), the pairing of FX07,
FX15 and FX18 among them (log 9); that 0x8018 and 0xE19F are unknown is the spec's decision D5 (log 10). -/
def Obligations.ExampleWordsDecode : Prop :=
  decodeWord 0x00E0#16 = .ok .cls ∧ decodeWord 0x00EE#16 = .ok .ret ∧
  decodeWord 0x0234#16 = .ok (.sys 0x234#12) ∧ decodeWord 0x1234#16 = .ok (.jp 0x234#12) ∧
  decodeWord 0x220A#16 = .ok (.call 0x20A#12) ∧ decodeWord 0x3100#16 = .ok (.seImm 0x1#4 0x00#8) ∧
  decodeWord 0x4206#16 = .ok (.sneImm 0x2#4 0x06#8) ∧ decodeWord 0x4205#16 = .ok (.sneImm 0x2#4 0x05#8) ∧
  decodeWord 0x5010#16 = .ok (.seReg 0x0#4 0x1#4) ∧ decodeWord 0x6A0F#16 = .ok (.ldImm 0xA#4 0x0F#8) ∧
  decodeWord 0x71FF#16 = .ok (.addImm 0x1#4 0xFF#8) ∧ decodeWord 0x8230#16 = .ok (.ldReg 0x2#4 0x3#4) ∧
  decodeWord 0x8011#16 = .ok (.orReg 0x0#4 0x1#4) ∧ decodeWord 0x8012#16 = .ok (.andReg 0x0#4 0x1#4) ∧
  decodeWord 0x8013#16 = .ok (.xorReg 0x0#4 0x1#4) ∧ decodeWord 0x8014#16 = .ok (.addReg 0x0#4 0x1#4) ∧
  decodeWord 0x8F14#16 = .ok (.addReg 0xF#4 0x1#4) ∧ decodeWord 0x8FF4#16 = .ok (.addReg 0xF#4 0xF#4) ∧
  decodeWord 0x8015#16 = .ok (.subReg 0x0#4 0x1#4) ∧ decodeWord 0x8FF5#16 = .ok (.subReg 0xF#4 0xF#4) ∧
  decodeWord 0x8236#16 = .ok (.shr 0x2#4 0x3#4) ∧ decodeWord 0x8017#16 = .ok (.subnReg 0x0#4 0x1#4) ∧
  decodeWord 0x823E#16 = .ok (.shl 0x2#4 0x3#4) ∧ decodeWord 0x9010#16 = .ok (.sneReg 0x0#4 0x1#4) ∧
  decodeWord 0x9000#16 = .ok (.sneReg 0x0#4 0x0#4) ∧ decodeWord 0xA300#16 = .ok (.ldI 0x300#12) ∧
  decodeWord 0xB300#16 = .ok (.jpV0 0x300#12) ∧ decodeWord 0xC30F#16 = .ok (.rnd 0x3#4 0x0F#8) ∧
  decodeWord 0xD121#16 = .ok (.drw 0x1#4 0x2#4 0x1#4) ∧ decodeWord 0xE49E#16 = .ok (.skp 0x4#4) ∧
  decodeWord 0xE4A1#16 = .ok (.sknp 0x4#4) ∧ decodeWord 0xF207#16 = .ok (.ldVxDt 0x2#4) ∧
  decodeWord 0xF00A#16 = .ok (.ldVxK 0x0#4) ∧ decodeWord 0xF50A#16 = .ok (.ldVxK 0x5#4) ∧
  decodeWord 0xF015#16 = .ok (.ldDtVx 0x0#4) ∧ decodeWord 0xF118#16 = .ok (.ldStVx 0x1#4) ∧
  decodeWord 0xF01E#16 = .ok (.addI 0x0#4) ∧ decodeWord 0xF029#16 = .ok (.ldF 0x0#4) ∧
  decodeWord 0xF033#16 = .ok (.ldB 0x0#4) ∧ decodeWord 0xF255#16 = .ok (.storeRegs 0x2#4) ∧
  decodeWord 0xF265#16 = .ok (.loadRegs 0x2#4) ∧ decodeWord 0x0000#16 = .error (.unknownOpcode 0x0000#16) ∧
  decodeWord 0x8018#16 = .error (.unknownOpcode 0x8018#16) ∧
  decodeWord 0xE19F#16 = .error (.unknownOpcode 0xE19F#16) ∧
  decodeBytes [0x6A#8, 0x0F#8] = .ok (.ldImm 0xA#4 0x0F#8, [])

/-! ## The machine as a whole -/

/-- Every step of every operation keeps the invariant: canonical memory, pc at most 0x10FE, return addresses at most
0x1000, a legal fault record (R29, R31, R36, R152; canonical memory is the model's own). -/
def Obligations.EveryStepKeepsTheInvariant : Prop :=
  ∀ s t : State, Inv s → step s = .next t → Inv t

/-- The state after reset satisfies the invariant. -/
def Obligations.ResetStateSatisfiesTheInvariant : Prop := Inv State.reset

/-- The model stops only where the loader refuses an image: every other step answers a next state, and no step is
refused (R158; that the machine's own faults are next states is log 1, the stop log 26). -/
def Obligations.OnlyAnOversizedImageStopsTheModel : Prop :=
  ∀ s : State, (∃ t, step s = .next t) ∨
    ∃ params image ops, s.schedule = .powerOn params image :: ops ∧ 3584 < image.length ∧
      step s = .fault .programTooLarge

/-- A step runs the decoded instruction: not halted, with the word at pc inside memory decoding to `i`, the step is `exec
i`, whatever the parity of pc and wherever it lies; a scheduled executor operation is first taken off the schedule (R76,
R30, R54; the schedule is log 2). -/
def Obligations.StepRunsTheDecodedInstruction : Prop :=
  ∀ (s : State) (i : Instr), s.fault = none → s.pc.toNat < 0xFFF → decodeWord (wordAtPc s) = .ok i →
    (s.schedule = [] → step s = exec i s) ∧
    ∀ ops, s.schedule = .step :: ops → step s = exec i (s.setSchedule ops)

/-- One step performs one operation of the total order (R12, R170, R171; the schedule is log 2): the executor's `Step` with
nothing scheduled, else the oldest scheduled operation, taken off the schedule. Performing an operation is the operation
of that name, so what is stated of `executorStep`, `tick`, `keyClearAll`, `keySet`, `takeFrame`, `hostReset` and `poweredOn`
is stated of the step; an image longer than 3584 bytes stops it (R158, log 26). -/
def Obligations.ScheduledOperationIsPerformed : Prop :=
  ∀ s : State,
    (s.schedule = [] → step s = executorStep s) ∧
    (∀ op ops, s.schedule = op :: ops → step s = perform op (s.setSchedule ops)) ∧
    perform .step s = executorStep s ∧
    perform .tick s = .next (tick s).1 ∧
    perform .keyClearAll s = .next (keyClearAll s) ∧
    (∀ k, perform (.keySet k) s = .next (keySet k s)) ∧
    perform .takeFrame s = .next (takeFrame s).1 ∧
    perform .reset s = .next (hostReset s) ∧
    (∀ params image, perform (.powerOn params image) s =
      if image.length ≤ 3584 then .next (poweredOn params image s) else .fault .programTooLarge)

/-- A fetch outside memory takes MemoryFault with the first address above 0xFFF and changes nothing else, before any
decode or execute check (R153 source (i), R163, R160). -/
def Obligations.FetchOutsideMemoryFaults : Prop :=
  ∀ s : State, s.fault = none → 0xFFF ≤ s.pc.toNat →
    Answers (executorStep s) fun t =>
      t.fault = some (.memoryFault (if s.pc.toNat = 0xFFF then 0x1000 else s.pc.toNat)) ∧ t.pc = s.pc ∧
      FrameBut [] [.faultLatch] s t

/-- Executing an unknown word takes UnknownOpcode with the raw word and changes nothing else (R149, R154). -/
def Obligations.UnknownWordTakesItsFault : Prop :=
  ∀ s : State, s.fault = none → s.pc.toNat < 0xFFF → (∀ i, decodeWord (wordAtPc s) ≠ .ok i) →
    Answers (executorStep s) fun t =>
      t.fault = some (.unknownOpcode (wordAtPc s)) ∧ t.pc = s.pc ∧ FrameBut [] [.faultLatch] s t

/-- While a fault is latched Step and Tick change nothing, Tick still returns whether ST is nonzero, and the key and frame
operations act on their own units as usual; none of these clears or replaces the fault (R162, R164; freezing Tick is the
spec's decision D23, log 20). -/
def Obligations.HaltedMachineStandsStill : Prop :=
  ∀ (s : State) (k : KeyIdx), s.fault ≠ none →
    executorStep s = .next s ∧ tick s = (s, decide (s.st ≠ 0x00#8)) ∧
    (keySet k s).key k = true ∧ (keySet k s).fault = s.fault ∧ (keyClearAll s).key k = false ∧
    (keyClearAll s).fault = s.fault ∧ (takeFrame s).1.dirty = false ∧ (takeFrame s).1.fault = s.fault

/-- A Step that latches a fault has changed FAULT alone: pc, registers, stack, memory, cells and timers are as before it
(R160; all-or-nothing is the spec's decision D17, log 17). -/
def Obligations.FaultingStepChangesOnlyFault : Prop :=
  ∀ s t : State, s.fault = none → executorStep s = .next t → t.fault ≠ none → t = s.setFault t.fault

/-- Which operation can latch which fault (R152, R159): a Step only at its fetch, at an unknown or legacy word, at a call
with a full stack, a return with an empty one, or at an access above 0xFFF of DXYN (N > 0), FX33, FX55, FX65; no other
operation latches any. -/
def Obligations.FaultsComeOnlyFromTheListedSources : Prop :=
  (∀ (s t : State) (f : FaultRecord), s.fault = none → executorStep s = .next t → t.fault = some f →
    (0xFFF ≤ s.pc.toNat ∧ ∃ a, 0xFFF < a ∧ f = .memoryFault a) ∨
    (s.pc.toNat < 0xFFF ∧ decodeWord (wordAtPc s) = .error (.unknownOpcode (wordAtPc s)) ∧
      f = .unknownOpcode (wordAtPc s)) ∨
    (s.pc.toNat < 0xFFF ∧ ∃ i, decodeWord (wordAtPc s) = .ok i ∧
      ((∃ nnn, i = .sys nnn ∧ f = .unsupportedLegacyOpcode (wordAtPc s)) ∨
       (∃ nnn, i = .call nnn ∧ s.sp.val = 16 ∧ f = .callStackOverflow) ∨
       (i = .ret ∧ s.sp.val = 0 ∧ f = .callStackUnderflow) ∨
       (0 < accessLength i ∧ 0xFFF < s.I.toNat + accessLength i - 1 ∧ ∃ a, 0xFFF < a ∧ f = .memoryFault a)))) ∧
  ∀ (op : Operation) (s t : State), op ≠ .step → perform op s = .next t → t.fault = s.fault ∨ t.fault = none

/-- Every instruction leaves unchanged every register outside its destinations and every part outside those its rule
writes, on every path, the faulting ones included; every byte of memory outside the addresses from I that it accesses, so
FX33 and FX55 no byte but those they store and every other instruction no byte at all; every stack entry but the first free
one; and, but for CLS, every cell but those its sprite covers (R22, R23, R31, R34, R40, R42, R55, R127 and the instruction
rules; that a faulting path changes nothing but FAULT is the spec's decision D17, log 17, that OR, AND and XOR leave VF D11,
log 13, that a popped entry stays D32, log 23, and the bit order of a sprite log 8). -/
def Obligations.EveryInstructionKeepsItsFrame : Prop :=
  ∀ (i : Instr) (s t : State), exec i s = .next t →
    FrameBut (destinations i) (partsWritten i) s t ∧
    (∀ a, a < s.I.toNat ∨ s.I.toNat + accessLength i ≤ a → t.byte a = s.byte a) ∧
    (∀ k : Fin 16, k.val ≠ s.sp.val → t.entry k = s.entry k) ∧
    (i ≠ .cls → ∀ px py,
      (∀ x y n, i = .drw x y n →
        ¬ SpriteCovers s ((s.reg x).toNat % 64) ((s.reg y).toNat % 32) n.toNat px py) →
      cell t.fb px py = cell s.fb px py)

/-- The generic advance: an instruction outside the eleven that does not fault leaves pc two higher (R77). -/
def Obligations.GenericAdvanceByTwo : Prop :=
  ∀ (i : Instr) (s t : State), setsOwnPc i = false → s.fault = none → exec i s = .next t → t.fault = none →
    t.pc = s.pc + 2#16

/-- No Step changes KEYS, none clears DIRTY, and DT and ST change only by FX15 and FX18 (R34, R42, R131, R175). -/
def Obligations.StepLeavesLatchAndTimers : Prop :=
  ∀ s t : State, executorStep s = .next t →
    t.keys = s.keys ∧ (s.dirty = true → t.dirty = true) ∧
    (t.dt = s.dt ∨ ∃ x, decodeWord (wordAtPc s) = .ok (.ldDtVx x) ∧ t.dt = s.reg x) ∧
    (t.st = s.st ∨ ∃ x, decodeWord (wordAtPc s) = .ok (.ldStVx x) ∧ t.st = s.reg x)

/-- No instruction reads ST (R34, R136): with ST set to any value beforehand, every instruction but the one that writes ST
does what it did, and ST keeps that value. For RND the two executions are given the same drawn byte, which the model assumes
by making the draw a function of the count of draws (DESIGN CHOICE, log 3): the claim is about ST at one and the same
input `rnd`. -/
def Obligations.SoundTimerIsNeverRead : Prop :=
  ∀ (i : Instr) (s t : State) (b : Byte), (∀ x, i ≠ .ldStVx x) → exec i s = .next t →
    exec i (s.setSt b) = .next (t.setSt b)

/-! ## Control flow -/

/-- `JP NNN` (R91): pc becomes the zero-extended address and nothing else changes. -/
def Obligations.JumpGoesToItsTarget : Prop :=
  ∀ (nnn : Addr12) (s : State), Answers (exec (.jp nnn) s) fun t =>
    t.pc.toNat = nnn.toNat ∧ FrameBut [] [] s t

/-- `JP V0, NNN` (R122): pc becomes `NNN + V0`, neither masked nor wrapped. -/
def Obligations.IndirectJumpAddsV0 : Prop :=
  ∀ (nnn : Addr12) (s : State), Answers (exec (.jpV0 nnn) s) fun t =>
    t.pc.toNat = nnn.toNat + (s.reg 0x0#4).toNat ∧ FrameBut [] [] s t

/-- `CALL NNN` (R92, R156): with fewer than sixteen entries in use it pushes `pc + 2` (derived by the spec, D14, log 34)
and jumps; with sixteen it takes CallStackOverflow and changes nothing else. -/
def Obligations.CallPushesTheNextAddress : Prop :=
  ∀ (nnn : Addr12) (s : State),
    (s.sp.val < 16 → Answers (exec (.call nnn) s) fun t =>
      t.pc.toNat = nnn.toNat ∧ t.sp.val = s.sp.val + 1 ∧
      (∀ k : Fin 16, t.entry k = if k.val = s.sp.val then s.pc + 2#16 else s.entry k) ∧
      FrameBut [] [.callStack] s t) ∧
    (s.sp.val = 16 → exec (.call nnn) s = .next (s.setFault (some .callStackOverflow)))

/-- `RET` (R93, R157): with an entry in use it pops it into pc; with none it takes CallStackUnderflow and changes nothing
else. The popped entry stays (R32, the spec's decision D32, log 23). -/
def Obligations.ReturnPopsIntoPc : Prop :=
  ∀ s : State,
    (∀ k : Fin 16, k.val + 1 = s.sp.val → Answers (exec .ret s) fun t =>
      t.pc = s.entry k ∧ t.sp.val = k.val ∧ (∀ j, t.entry j = s.entry j) ∧ FrameBut [] [.callStack] s t) ∧
    (s.sp.val = 0 → exec .ret s = .next (s.setFault (some .callStackUnderflow)))

/-- A return undoes a call: after a call that does not overflow, a return executed with the call's stack goes to the
instruction after the call and leaves the depth as before (R92, R93). -/
def Obligations.ReturnUndoesCall : Prop :=
  ∀ (nnn : Addr12) (s t u : State), s.sp.val < 16 → exec (.call nnn) s = .next t → u.sp = t.sp → u.stack = t.stack →
    Answers (exec .ret u) fun v => v.pc = s.pc + 2#16 ∧ v.sp = s.sp

/-- `SE Vx, NN` and `SNE Vx, NN` (R94, R95). -/
def Obligations.SkipsComparingWithAnImmediate : Prop :=
  ∀ (x : RegIdx) (nn : Byte) (s : State),
    (Answers (exec (.seImm x nn) s) fun t =>
      (s.reg x = nn → t.pc = s.pc + 4#16) ∧ (s.reg x ≠ nn → t.pc = s.pc + 2#16) ∧ FrameBut [] [] s t) ∧
    (Answers (exec (.sneImm x nn) s) fun t =>
      (s.reg x ≠ nn → t.pc = s.pc + 4#16) ∧ (s.reg x = nn → t.pc = s.pc + 2#16) ∧ FrameBut [] [] s t)

/-- `SE Vx, Vy` and `SNE Vx, Vy` (R96, R97). -/
def Obligations.SkipsComparingRegisters : Prop :=
  ∀ (x y : RegIdx) (s : State),
    (Answers (exec (.seReg x y) s) fun t =>
      (s.reg x = s.reg y → t.pc = s.pc + 4#16) ∧ (s.reg x ≠ s.reg y → t.pc = s.pc + 2#16) ∧ FrameBut [] [] s t) ∧
    (Answers (exec (.sneReg x y) s) fun t =>
      (s.reg x ≠ s.reg y → t.pc = s.pc + 4#16) ∧ (s.reg x = s.reg y → t.pc = s.pc + 2#16) ∧ FrameBut [] [] s t)

/-! ## Register loads and arithmetic -/

/-- `LD Vx, NN` and `LD Vx, Vy` (R100, R102), VF an ordinary destination. -/
def Obligations.LoadsIntoARegister : Prop :=
  ∀ (x y : RegIdx) (nn : Byte) (s : State),
    (Answers (exec (.ldImm x nn) s) fun t => t.reg x = nn ∧ t.pc = s.pc + 2#16 ∧ FrameBut [x] [] s t) ∧
    (Answers (exec (.ldReg x y) s) fun t => t.reg x = s.reg y ∧ t.pc = s.pc + 2#16 ∧ FrameBut [x] [] s t)

/-- `ADD Vx, NN` (R101, R107): modulo 256, VF untouched unless it is the destination (the wrap is the spec's decision D10,
log 12). -/
def Obligations.AddImmediateWrapsWithoutFlag : Prop :=
  ∀ (x : RegIdx) (nn : Byte) (s : State), Answers (exec (.addImm x nn) s) fun t =>
    (t.reg x).toNat = ((s.reg x).toNat + nn.toNat) % 256 ∧ t.pc = s.pc + 2#16 ∧ FrameBut [x] [] s t

/-- `OR`, `AND`, `XOR` (R103, R104, R105): bit by bit; VF untouched unless it is the destination (the spec's decision D11,
log 13). -/
def Obligations.LogicIsBitwiseWithoutFlag : Prop :=
  ∀ (x y : RegIdx) (s : State),
    (Answers (exec (.orReg x y) s) fun t =>
      (∀ k, (t.reg x).getLsbD k = ((s.reg x).getLsbD k || (s.reg y).getLsbD k)) ∧ t.pc = s.pc + 2#16 ∧
      FrameBut [x] [] s t) ∧
    (Answers (exec (.andReg x y) s) fun t =>
      (∀ k, (t.reg x).getLsbD k = ((s.reg x).getLsbD k && (s.reg y).getLsbD k)) ∧ t.pc = s.pc + 2#16 ∧
      FrameBut [x] [] s t) ∧
    (Answers (exec (.xorReg x y) s) fun t =>
      (∀ k, (t.reg x).getLsbD k = ((s.reg x).getLsbD k ^^ (s.reg y).getLsbD k)) ∧ t.pc = s.pc + 2#16 ∧
      FrameBut [x] [] s t)

/-- `ADD Vx, Vy` (R106, R107, R113): the sum modulo 256 and the carry in VF (flag last: the spec's decision D9, log
11). -/
def Obligations.AddSetsCarry : Prop :=
  ∀ (x y : RegIdx) (s : State), Answers (exec (.addReg x y) s) fun t =>
    ResultAndFlag x (((s.reg x).toNat + (s.reg y).toNat) % 256)
      (decide ((s.reg x).toNat + (s.reg y).toNat > 255)) s t

/-- `SUB Vx, Vy` and `SUBN Vx, Vy` (R108, R109, R107, R113): the difference modulo 256 and VF = 1 when no borrow occurred
(flag last: the spec's decision D9, log 11). -/
def Obligations.SubtractionsSetNoBorrow : Prop :=
  ∀ (x y : RegIdx) (s : State),
    (Answers (exec (.subReg x y) s) fun t =>
      ResultAndFlag x (((s.reg x).toNat + 256 - (s.reg y).toNat) % 256)
        (decide ((s.reg x).toNat ≥ (s.reg y).toNat)) s t) ∧
    (Answers (exec (.subnReg x y) s) fun t =>
      ResultAndFlag x (((s.reg y).toNat + 256 - (s.reg x).toNat) % 256)
        (decide ((s.reg y).toNat ≥ (s.reg x).toNat)) s t)

/-- `SHR Vx {, Vy}` and `SHL Vx {, Vy}` (R110, R111, R112, R113), under both settings of the quirk: half the operand, or
twice it modulo 256, and the bit shifted out in VF (flag last: the spec's decision D9, log 11). -/
def Obligations.ShiftsByOneUnderTheQuirk : Prop :=
  ∀ (x y : RegIdx) (s : State) (a : Byte), ShiftOperand s x y a →
    (Answers (exec (.shr x y) s) fun t => ResultAndFlag x (a.toNat / 2) (decide (a.toNat % 2 = 1)) s t) ∧
    (Answers (exec (.shl x y) s) fun t => ResultAndFlag x (a.toNat * 2 % 256) (decide (a.toNat ≥ 128)) s t)

/-! ## Index register and random -/

/-- `LD I, NNN`, `ADD I, Vx`, `LD F, Vx` (R116, R118, R120): no flag, no fault, whatever the sum (the wrap at 2^16 is the
spec's decision D10, log 12; the low nibble as digit D12, log 14). -/
def Obligations.IndexRegisterLoads : Prop :=
  ∀ (nnn : Addr12) (x : RegIdx) (s : State),
    (Answers (exec (.ldI nnn) s) fun t =>
      t.I.toNat = nnn.toNat ∧ t.pc = s.pc + 2#16 ∧ FrameBut [] [.index] s t) ∧
    (Answers (exec (.addI x) s) fun t =>
      t.I.toNat = (s.I.toNat + (s.reg x).toNat) % 65536 ∧ t.pc = s.pc + 2#16 ∧ FrameBut [] [.index] s t) ∧
    (Answers (exec (.ldF x) s) fun t =>
      t.I.toNat = 0x050 + 5 * ((s.reg x).toNat % 16) ∧ t.pc = s.pc + 2#16 ∧ FrameBut [] [.index] s t)

/-- `RND Vx, NN` (R123): the byte of this draw masked by NN, so a bit outside NN is 0 whatever was drawn, and the next
draw is another (the draw is the model's free value, log 3: the statement holds for every value of it). -/
def Obligations.RandomByteIsMasked : Prop :=
  ∀ (x : RegIdx) (nn : Byte) (s : State), Answers (exec (.rnd x nn) s) fun t =>
    (∀ k, (t.reg x).getLsbD k = ((Config.rnd s.draws).getLsbD k && nn.getLsbD k)) ∧ t.draws = s.draws + 1 ∧
    t.pc = s.pc + 2#16 ∧ FrameBut [x] [.drawCount] s t

/-! ## Display -/

/-- `CLS` (R125): every cell 0 and DIRTY set, whatever the grid held. -/
def Obligations.ClearScreenBlanksAndMarksDirty : Prop :=
  ∀ s : State, Answers (exec .cls s) fun t =>
    (∀ x y, cell t.fb x y = false) ∧ t.dirty = true ∧ t.pc = s.pc + 2#16 ∧
    FrameBut [] [.screen, .dirtyFlag] s t

/-- `DRW Vx, Vy, N` with all its bytes inside memory (R127, R128, R55): from the start position modulo the grid, exactly
the cells a sprite bit covers are flipped, clipped at the edges; VF is 1 exactly when a covered cell was set; DIRTY is set
when a cell is covered and otherwise unchanged (bit order: log 8; DIRTY and N = 0: the spec's decision D20, log 18; the
coordinates are read before VF is written: D9, log 11). -/
def Obligations.DrawFlipsTheCoveredCells : Prop :=
  ∀ (x y : RegIdx) (n : Nibble) (s : State), n = 0x0#4 ∨ s.I.toNat + n.toNat ≤ 0x1000 →
    Answers (exec (.drw x y n) s) fun t =>
      let covers := SpriteCovers s ((s.reg x).toNat % 64) ((s.reg y).toNat % 32) n.toNat
      (∀ px py, (covers px py → cell t.fb px py = !cell s.fb px py) ∧
        (¬ covers px py → cell t.fb px py = cell s.fb px py)) ∧
      ((∃ px py, covers px py ∧ cell s.fb px py = true) → t.reg VF = 0x01#8) ∧
      (¬ (∃ px py, covers px py ∧ cell s.fb px py = true) → t.reg VF = 0x00#8) ∧
      ((∃ px py, covers px py) → t.dirty = true) ∧ (¬ (∃ px py, covers px py) → t.dirty = s.dirty) ∧
      t.pc = s.pc + 2#16 ∧ FrameBut [VF] [.screen, .dirtyFlag] s t

/-- Drawing the same sprite twice at the same place restores every cell (R127, R128; the source's property S5). The second
draw is executed in the state the first left; a coordinate register that is VF is left out, since the first draw writes
the flag there, and so is a first draw that faults. The second draw's flag is 1 when the first left a covered cell set;
which cells a sprite covers rests on the bit order of log 8 (PRESUMED, general knowledge in R127). -/
def Obligations.DrawingTwiceRestoresTheScreen : Prop :=
  ∀ (x y : RegIdx) (n : Nibble) (s t u : State), x ≠ VF → y ≠ VF → exec (.drw x y n) s = .next t → t.fault = none →
    exec (.drw x y n) t = .next u →
    (∀ px py, cell u.fb px py = cell s.fb px py) ∧
    ((∃ px py, SpriteCovers s ((s.reg x).toNat % 64) ((s.reg y).toNat % 32) n.toNat px py ∧
      cell t.fb px py = true) → u.reg VF = 0x01#8)

/-- An access above 0xFFF by DXYN, FX33, FX55 or FX65 takes MemoryFault with the lowest such address and changes nothing
else: no byte stored, no register loaded, nothing drawn, I and pc unchanged (R147, R128, R153; all-or-nothing is the
spec's decision D17, log 17; reading clipped rows D20, log 18). -/
def Obligations.AccessOutsideMemoryChangesNothing : Prop :=
  ∀ (i : Instr) (s : State), 0 < accessLength i → 0x1000 < s.I.toNat + accessLength i →
    exec i s = .next (s.setFault (some (.memoryFault (if s.I.toNat ≤ 0xFFF then 0x1000 else s.I.toNat))))

/-! ## Keys and timers -/

/-- `SKP Vx` and `SKNP Vx` (R133, R134, R135): the key is the low nibble of Vx (the spec's decision D13, log 14). -/
def Obligations.SkipsOnAKey : Prop :=
  ∀ (x : RegIdx) (k : KeyIdx) (s : State), k.toNat = (s.reg x).toNat % 16 →
    (Answers (exec (.skp x) s) fun t =>
      (s.key k = true → t.pc = s.pc + 4#16) ∧ (s.key k = false → t.pc = s.pc + 2#16) ∧ FrameBut [] [] s t) ∧
    (Answers (exec (.sknp x) s) fun t =>
      (s.key k = false → t.pc = s.pc + 4#16) ∧ (s.key k = true → t.pc = s.pc + 2#16) ∧ FrameBut [] [] s t)

/-- `LD Vx, DT`, `LD DT, Vx`, `LD ST, Vx` (R136, R137, R138, R177): and sound_active follows the new ST at once. -/
def Obligations.TimerTransfers : Prop :=
  ∀ (x : RegIdx) (s : State),
    (Answers (exec (.ldVxDt x) s) fun t => t.reg x = s.dt ∧ t.pc = s.pc + 2#16 ∧ FrameBut [x] [] s t) ∧
    (Answers (exec (.ldDtVx x) s) fun t =>
      t.dt = s.reg x ∧ t.pc = s.pc + 2#16 ∧ FrameBut [] [.delayTimer] s t) ∧
    (Answers (exec (.ldStVx x) s) fun t =>
      t.st = s.reg x ∧ (soundActive t = true ↔ s.reg x ≠ 0x00#8) ∧ t.pc = s.pc + 2#16 ∧
      FrameBut [] [.soundTimer] s t)

/-- `LD Vx, K` (R139): with no key held the step completes and changes nothing, so pc stays; with one held Vx becomes the
least held key's number and pc advances at once (that it waits for no release is the spec's decision D21, log 19). -/
def Obligations.KeyWaitTakesTheLowestHeldKey : Prop :=
  ∀ (x : RegIdx) (s : State),
    ((∀ k, s.key k = false) → exec (.ldVxK x) s = .next s) ∧
    ∀ k : KeyIdx, s.key k = true → (∀ j : KeyIdx, j.toNat < k.toNat → s.key j = false) →
      Answers (exec (.ldVxK x) s) fun t =>
        (t.reg x).toNat = k.toNat ∧ t.pc = s.pc + 2#16 ∧ FrameBut [x] [] s t

/-! ## Memory transfer -/

/-- `LD B, Vx` with its three bytes inside memory (R142): the decimal digits, hundreds first, at I, I+1, I+2; every other
byte, I and the registers unchanged. -/
def Obligations.DecimalDigitsAreStored : Prop :=
  ∀ (x : RegIdx) (s : State), Memory.wf s.mem = true → s.I.toNat + 2 ≤ 0xFFF →
    Answers (exec (.ldB x) s) fun t =>
      (t.byte s.I.toNat).toNat = (s.reg x).toNat / 100 ∧
      (t.byte (s.I.toNat + 1)).toNat = (s.reg x).toNat / 10 % 10 ∧
      (t.byte (s.I.toNat + 2)).toNat = (s.reg x).toNat % 10 ∧
      (∀ a, a < s.I.toNat ∨ s.I.toNat + 2 < a → t.byte a = s.byte a) ∧
      t.pc = s.pc + 2#16 ∧ FrameBut [] [.memory] s t

/-- `LD [I], Vx` with its bytes inside memory (R144, R143): V0..Vx at I..I+X, every other byte unchanged, I by the index
quirk under both settings. -/
def Obligations.RegistersAreStored : Prop :=
  ∀ (x : RegIdx) (s : State), Memory.wf s.mem = true → s.I.toNat + x.toNat ≤ 0xFFF →
    Answers (exec (.storeRegs x) s) fun t =>
      (∀ r : RegIdx, r.toNat ≤ x.toNat → t.byte (s.I.toNat + r.toNat) = s.reg r) ∧
      (∀ a, a < s.I.toNat ∨ s.I.toNat + x.toNat < a → t.byte a = s.byte a) ∧
      IndexAfter s t x ∧ t.pc = s.pc + 2#16 ∧ FrameBut [] [.memory, .index] s t

/-- `LD Vx, [I]` with its bytes inside memory (R145, R143): V0..Vx from I..I+X, the registers above X and all of memory
unchanged, I by the index quirk under both settings. -/
def Obligations.RegistersAreLoaded : Prop :=
  ∀ (x : RegIdx) (s : State), s.I.toNat + x.toNat ≤ 0xFFF →
    Answers (exec (.loadRegs x) s) fun t =>
      (∀ r : RegIdx, r.toNat ≤ x.toNat → t.reg r = s.byte (s.I.toNat + r.toNat)) ∧
      (∀ r : RegIdx, x.toNat < r.toNat → t.reg r = s.reg r) ∧
      IndexAfter s t x ∧ t.pc = s.pc + 2#16 ∧ FrameBut (destinations (.loadRegs x)) [.index] s t

/-- The round trip of R146: a load of V0..Vx from where a store put them, with the memory the store left and the same I,
restores them, under both settings of the index quirk. -/
def Obligations.LoadAfterStoreRestoresRegisters : Prop :=
  ∀ (x : RegIdx) (s t u : State), Memory.wf s.mem = true → s.I.toNat + x.toNat ≤ 0xFFF →
    exec (.storeRegs x) s = .next t → u.I = s.I →
    (∀ a, s.I.toNat ≤ a → a ≤ s.I.toNat + x.toNat → u.byte a = t.byte a) →
    Answers (exec (.loadRegs x) u) fun v => ∀ r : RegIdx, r.toNat ≤ x.toNat → v.reg r = s.reg r

/-- The converse round trip of R146: a store of V0..Vx to where a load took them from, with the registers the load left, the
same I and the same bytes there, leaves every byte of memory as it was, under both settings of the index quirk. -/
def Obligations.StoreAfterLoadKeepsMemory : Prop :=
  ∀ (x : RegIdx) (s t u : State), Memory.wf u.mem = true → s.I.toNat + x.toNat ≤ 0xFFF →
    exec (.loadRegs x) s = .next t → u.I = s.I → (∀ r : RegIdx, r.toNat ≤ x.toNat → u.reg r = t.reg r) →
    (∀ a, s.I.toNat ≤ a → a ≤ s.I.toNat + x.toNat → u.byte a = s.byte a) →
    Answers (exec (.storeRegs x) u) fun v => ∀ a, v.byte a = u.byte a

/-- A store is seen by every later fetch (R64, an inference the spec marks as its own decision D25, log 35): after an
instruction that runs inside memory, FX33 and FX55 over none, one or both bytes of a word among them, a fetch from any
address composes the bytes the instruction left, high byte first, in every state that holds them still, and a running
machine executes that word. -/
def Obligations.StoredCodeIsFetchedNext : Prop :=
  ∀ (i : Instr) (s t u : State), Memory.wf s.mem = true →
    (accessLength i = 0 ∨ s.I.toNat + accessLength i ≤ 0x1000) → exec i s = .next t →
    (∀ a, u.byte a = t.byte a) → u.pc.toNat < 0xFFF →
    fetch u = .ok (wordOfBytes (byteAfter i s u.pc.toNat) (byteAfter i s (u.pc.toNat + 1))) ∧
    (u.fault = none → executorStep u =
      executeWord (wordOfBytes (byteAfter i s u.pc.toNat) (byteAfter i s (u.pc.toNat + 1))) u)

/-- Memory holds what was last written (R56, R51): inside memory a write succeeds, its address then reads as the byte
written, every other address as before, and the canonical form is kept; outside it both accesses raise MemoryFault with
the address. -/
def Obligations.MemoryReadsWhatWasWritten : Prop :=
  ∀ (m : Memory) (a : Nat) (v : Byte), Memory.wf m = true →
    (a ≤ 0xFFF → ∃ m', memWrite m a v = .ok m' ∧ memRead m' a = .ok v ∧ Memory.wf m' = true ∧
      ∀ b, b ≠ a → memRead m' b = memRead m b) ∧
    (0xFFF < a → memWrite m a v = .error (.memoryFault a) ∧ memRead m a = .error (.memoryFault a))

/-! ## Legacy calls -/

/-- `SYS NNN` (R148, R155): takes UnsupportedLegacyOpcode with its word and changes nothing else (that the record carries
the word is the spec's decision D18, log 17). -/
def Obligations.LegacyCallTakesItsFault : Prop :=
  ∀ (nnn : Addr12) (s : State), Answers (exec (.sys nnn) s) fun t =>
    t.fault = some (.unsupportedLegacyOpcode (encode (.sys nnn))) ∧ (encode (.sys nnn)).toNat = nnn.toNat ∧
    t.pc = s.pc ∧ FrameBut [] [.faultLatch] s t

/-! ## The other agents -/

/-- `Tick` (R175): while not halted both counters go down by one unless zero and nothing else changes, while halted nothing
changes (freezing it is the spec's decision D23, log 20), and it returns whether ST is nonzero afterwards. -/
def Obligations.TickCountsBothTimersDown : Prop :=
  ∀ s : State,
    (s.fault = none →
      (tick s).1.dt.toNat = s.dt.toNat - 1 ∧ (tick s).1.st.toNat = s.st.toNat - 1 ∧
      (tick s).2 = decide ((tick s).1.st ≠ 0x00#8) ∧ (tick s).1.pc = s.pc ∧
      FrameBut [] [.delayTimer, .soundTimer] s (tick s).1) ∧
    (s.fault ≠ none → tick s = (s, decide (s.st ≠ 0x00#8)))

/-- The timer law (R176): after `n` ticks a counter that stood at `V` stands at `max(0, V - n)`, and sound_active is ST
nonzero throughout (R177). -/
def Obligations.TimersSaturateAtZero : Prop :=
  ∀ (n : Nat) (s : State), s.fault = none →
    (ticks n s).dt.toNat = s.dt.toNat - n ∧ (ticks n s).st.toNat = s.st.toNat - n ∧
    (soundActive (ticks n s) = true ↔ n < s.st.toNat)

/-- `KeyClearAll` and `KeySet(k)` (R179, R180): they change KEYS alone, and no operation of any agent clears a single key:
one that releases a held key leaves none held. -/
def Obligations.KeyLatchOperations : Prop :=
  (∀ (s : State) (k : KeyIdx),
    (∀ j, (keyClearAll s).key j = false) ∧ (keyClearAll s).pc = s.pc ∧ FrameBut [] [.keyLatch] s (keyClearAll s) ∧
    (∀ j, (keySet k s).key j = if j = k then true else s.key j) ∧ (keySet k s).pc = s.pc ∧
    FrameBut [] [.keyLatch] s (keySet k s)) ∧
  ∀ (op : Operation) (s t : State) (k : KeyIdx), perform op s = .next t → s.key k = true → t.key k = false →
    ∀ j, t.key j = false

/-- `TakeFrame` (R131): it returns the 2048 cells in row-major order, clears DIRTY and changes nothing else, halted or not.
That it returns the cells when DIRTY is 0 too is the model's choice between R131, which it follows, and the vectors T43-20
and T43-22, which answer no frame there (log 24). -/
def Obligations.TakeFrameReturnsTheCells : Prop :=
  ∀ (s : State), (takeFrame s).2.length = 2048 ∧
    (∀ (x : Fin 64) (y : Fin 32), (takeFrame s).2[y.val * 64 + x.val]? = some (cell s.fb x y)) ∧
    (takeFrame s).1.dirty = false ∧ (takeFrame s).1.pc = s.pc ∧ FrameBut [] [.dirtyFlag] s (takeFrame s).1

/-- `PowerOn(image)` with an image that fits (R186, R158): everything zeroed, pc 0x200, no key held, no fault, the glyph
table of the parameter GLYPHS (R58) and the image in memory and 0x00 elsewhere (I, DIRTY, KEYS and unlisted memory are the
spec's decision D24, FAULT D17, log 21; the parameters are selected here, logs 4, 5 and 7; the draws counter and the
schedule are kept, log 33). -/
def Obligations.PowerOnConstructsTheMachine : Prop :=
  ∀ (params : Params) (image : List Byte) (s : State), image.length ≤ 3584 →
    Answers (perform (.powerOn params image) s) fun t =>
      Rewound t ∧ (∀ k, t.key k = false) ∧ t.params = params ∧ t.draws = s.draws ∧ t.schedule = s.schedule ∧
      Memory.wf t.mem = true ∧
      (∀ k : Fin 80, t.byte (0x050 + k.val) = params.glyphs.get k) ∧
      (∀ k, k < image.length → t.byte (0x200 + k) = image.getD k 0x00#8) ∧
      (∀ a, a < 0x050 ∨ (0x0A0 ≤ a ∧ a < 0x200) ∨ 0x200 + image.length ≤ a → t.byte a = 0x00#8)

/-- The loader's condition (R158): an image longer than 3584 bytes, and no other, is refused as ProgramTooLarge, and then
nothing runs (log 26). -/
def Obligations.OversizedImageIsRefused : Prop :=
  ∀ (params : Params) (image : List Byte) (s : State),
    perform (.powerOn params image) s = .fault .programTooLarge ↔ 3584 < image.length

/-- `Reset` (R190, R192, R193, R194): everything PowerOn zeroes is zeroed and FAULT cleared, the glyph table of the
parameter GLYPHS (R58, log 7) is rewritten, and every other byte and the key latch keep their values (the spec's decision
D24, log 22). -/
def Obligations.ResetRewindsAndKeepsTheProgram : Prop :=
  ∀ s : State, Memory.wf s.mem = true →
    Answers (perform .reset s) fun t =>
      Rewound t ∧ t.keys = s.keys ∧ t.params = s.params ∧ t.draws = s.draws ∧ t.schedule = s.schedule ∧
      Memory.wf t.mem = true ∧
      (∀ k : Fin 80, t.byte (0x050 + k.val) = s.params.glyphs.get k) ∧
      (∀ a, a < 0x050 ∨ 0x0A0 ≤ a → t.byte a = s.byte a)

/-- The end-of-run convention (R198): at a jump to its own address a step changes nothing. -/
def Obligations.IdleSelfJumpChangesNothing : Prop :=
  ∀ (s : State) (nnn : Addr12), s.fault = none → s.schedule = [] → s.pc.toNat < 0xFFF → s.pc.toNat = nnn.toNat →
    wordAtPc s = encode (.jp nnn) → step s = .next s

/-- The outputs of the FAULT latch (R152, R161): the code of each record and its information word (the codes and the
information words are the spec's decision D18, log 17). -/
def Obligations.FaultOutputsShowTheLatch : Prop :=
  ∀ s : State,
    (s.fault = none → faultCode s = 0 ∧ faultInfo s = none) ∧
    (∀ a, s.fault = some (.memoryFault a) → faultCode s = 1 ∧ faultInfo s = some a) ∧
    (∀ w, s.fault = some (.unknownOpcode w) → faultCode s = 2 ∧ faultInfo s = some w.toNat) ∧
    (∀ w, s.fault = some (.unsupportedLegacyOpcode w) → faultCode s = 3 ∧ faultInfo s = some w.toNat) ∧
    (s.fault = some .callStackOverflow → faultCode s = 4 ∧ faultInfo s = none) ∧
    (s.fault = some .callStackUnderflow → faultCode s = 5 ∧ faultInfo s = none)
end

