-- ==== Sys2Proof/Laws/Encoding.lean ====
section
/-! SUPPORT. The fields of a word built from its fields, a word rebuilt from its fields, and the two bytes of a word. -/

namespace Sys2Proof

/-! ### Fields of the formats of R72 -/

section
variable (o : Nibble) (x y : RegIdx) (n : Nibble) (nn : Byte) (nnn : Addr12)

/-- Bit `i` of an `NNN` word. -/
theorem bit_nnn (i : Nat) :
    (o ++ nnn : Word).getLsbD i = if i < 12 then nnn.getLsbD i else o.getLsbD (i - 12) :=
  BitVec.getLsbD_append

/-- Bit `i` of an `XNN` word. -/
theorem bit_xnn (i : Nat) : (o ++ x ++ nn : Word).getLsbD i =
    if i < 8 then nn.getLsbD i else if i < 12 then x.getLsbD (i - 8) else o.getLsbD (i - 12) := by
  refine (BitVec.getLsbD_append (x := o ++ x) (y := nn)).trans ?_
  by_cases h : i < 8
  · simp [h]
  · rw [if_neg h, if_neg h]
    refine (BitVec.getLsbD_append (x := o) (y := x)).trans ?_
    by_cases h' : i < 12
    · rw [if_pos (by omega), if_pos h']
    · rw [if_neg (by omega), if_neg h', show i - 8 - 4 = i - 12 by omega]

/-- Bit `i` of an `XYN` word. -/
theorem bit_xyn (i : Nat) : (o ++ x ++ y ++ n : Word).getLsbD i =
    if i < 4 then n.getLsbD i else if i < 8 then y.getLsbD (i - 4) else
      if i < 12 then x.getLsbD (i - 8) else o.getLsbD (i - 12) := by
  refine (BitVec.getLsbD_append (x := o ++ x ++ y) (y := n)).trans ?_
  by_cases h : i < 4
  · simp [h]
  · rw [if_neg h, if_neg h]
    refine (BitVec.getLsbD_append (x := o ++ x) (y := y)).trans ?_
    by_cases h' : i < 8
    · rw [if_pos (by omega), if_pos h']
    · rw [if_neg (by omega), if_neg h']
      refine (BitVec.getLsbD_append (x := o) (y := x)).trans ?_
      by_cases h'' : i < 12
      · rw [if_pos (by omega), if_pos h'', show i - 4 - 4 = i - 8 by omega]
      · rw [if_neg (by omega), if_neg h'', show i - 4 - 4 - 4 = i - 12 by omega]

@[simp] theorem fieldOp_nnn : fieldOp (o ++ nnn : Word) = o := by
  ext i hi
  simp [fieldOp, bit_nnn, BitVec.getLsbD_eq_getElem, hi]
@[simp] theorem fieldNNN_nnn : fieldNNN (o ++ nnn : Word) = nnn := by
  ext i hi
  simp [fieldNNN, bit_nnn, BitVec.getLsbD_eq_getElem, hi]
@[simp] theorem fieldOp_xnn : fieldOp (o ++ x ++ nn : Word) = o := by
  ext i hi
  simp [fieldOp, bit_xnn, BitVec.getLsbD_eq_getElem, hi, show ¬ 12 + i < 8 by omega]
@[simp] theorem fieldX_xnn : fieldX (o ++ x ++ nn : Word) = x := by
  ext i hi
  simp [fieldX, bit_xnn, BitVec.getLsbD_eq_getElem, hi, show 8 + i < 12 by omega]
@[simp] theorem fieldNN_xnn : fieldNN (o ++ x ++ nn : Word) = nn := by
  ext i hi
  simp [fieldNN, bit_xnn, BitVec.getLsbD_eq_getElem, hi]
@[simp] theorem fieldOp_xyn : fieldOp (o ++ x ++ y ++ n : Word) = o := by
  ext i hi
  simp [fieldOp, bit_xyn, BitVec.getLsbD_eq_getElem, hi, show ¬ 12 + i < 4 by omega, show ¬ 12 + i < 8 by omega]
@[simp] theorem fieldX_xyn : fieldX (o ++ x ++ y ++ n : Word) = x := by
  ext i hi
  simp [fieldX, bit_xyn, BitVec.getLsbD_eq_getElem, hi, show 8 + i < 12 by omega, show ¬ 8 + i < 4 by omega]
@[simp] theorem fieldY_xyn : fieldY (o ++ x ++ y ++ n : Word) = y := by
  ext i hi
  simp [fieldY, bit_xyn, BitVec.getLsbD_eq_getElem, hi, show 4 + i < 8 by omega]
@[simp] theorem fieldN_xyn : fieldN (o ++ x ++ y ++ n : Word) = n := by
  ext i hi
  simp [fieldN, bit_xyn, BitVec.getLsbD_eq_getElem, hi]

end

/-! ### A word from its fields -/

theorem word_eq_nnn (w : Word) : (fieldOp w ++ fieldNNN w : Word) = w := by
  refine BitVec.eq_of_getLsbD_eq fun i hi => ?_
  rw [bit_nnn]
  split
  · simp [fieldNNN, *]
  · simp [fieldOp, show i - 12 < 4 by omega, show 12 + (i - 12) = i by omega]

theorem word_eq_xnn (w : Word) : (fieldOp w ++ fieldX w ++ fieldNN w : Word) = w := by
  refine BitVec.eq_of_getLsbD_eq fun i hi => ?_
  rw [bit_xnn]
  split
  · simp [fieldNN, *]
  · split
    · simp [fieldX, show i - 8 < 4 by omega, show 8 + (i - 8) = i by omega]
    · simp [fieldOp, show i - 12 < 4 by omega, show 12 + (i - 12) = i by omega]

theorem word_eq_xyn (w : Word) : (fieldOp w ++ fieldX w ++ fieldY w ++ fieldN w : Word) = w := by
  refine BitVec.eq_of_getLsbD_eq fun i hi => ?_
  rw [bit_xyn]
  split
  · simp [fieldN, *]
  · split
    · simp [fieldY, show i - 4 < 4 by omega, show 4 + (i - 4) = i by omega]
    · split
      · simp [fieldX, show i - 8 < 4 by omega, show 8 + (i - 8) = i by omega]
      · simp [fieldOp, show i - 12 < 4 by omega, show 12 + (i - 12) = i by omega]

/-- A word laid out in memory and composed again is the word (R52). -/
@[simp] theorem wordOfBytes_bytesOfWord (w : Word) : wordOfBytes (bytesOfWord w).1 (bytesOfWord w).2 = w := by
  refine BitVec.eq_of_getLsbD_eq fun i hi => ?_
  refine (BitVec.getLsbD_append (x := (bytesOfWord w).1) (y := (bytesOfWord w).2)).trans ?_
  split
  · simp [bytesOfWord, *]
  · simp [bytesOfWord, show i - 8 < 8 by omega, show 8 + (i - 8) = i by omega]

end Sys2Proof
end

