-- ==== Sys2Proof/Laws/Memory.lean ====
section
/-! SUPPORT. What the memory operations do, once each: a read after a write, the canonical form kept, byte sequences,
and exactly when and with which record a bounds-checked sequence faults. -/

namespace Sys2Proof.Machine

theorem memSize_eq : Config.memSize = 4096 := rfl

/-! ### One byte -/

@[simp] theorem peek_nil (a : Nat) : Memory.peek [] a = initialByte a := rfl

/-- A write leaves every other address alone, in any cell list. -/
theorem peek_poke_ne (m : Memory) {a b : Nat} (v : Byte) (h : b ≠ a) :
    Memory.peek (Memory.poke m a v) b = Memory.peek m b := by
  induction m with
  | nil =>
    simp only [Memory.poke]
    split <;> simp [Memory.peek, h]
  | cons c m ih =>
    obtain ⟨d, w⟩ := c
    simp only [Memory.poke]
    split
    · split <;> simp [Memory.peek, h]
    · split
      · subst a
        split <;> simp [Memory.peek, h]
      · simp only [Memory.peek, ih]

/-- Below the first listed address everything reads as unlisted. -/
theorem peek_of_wfFrom {lo : Nat} {m : Memory} (hm : Memory.wfFrom lo m = true) {a : Nat} (h : a < lo) :
    Memory.peek m a = initialByte a := by
  induction m generalizing lo with
  | nil => rfl
  | cons c m ih =>
    obtain ⟨d, w⟩ := c
    simp only [Memory.wfFrom, Bool.and_eq_true, decide_eq_true_eq] at hm
    have hne : a ≠ d := by omega
    simp only [Memory.peek, if_neg hne]
    exact ih hm.2 (by omega)

/-- A read after a write to the same address gives the value written. -/
theorem peek_poke_same {lo : Nat} {m : Memory} (hm : Memory.wfFrom lo m = true) (a : Nat) (v : Byte) :
    Memory.peek (Memory.poke m a v) a = v := by
  induction m generalizing lo with
  | nil =>
    simp only [Memory.poke]
    split <;> simp_all [Memory.peek]
  | cons c m ih =>
    obtain ⟨d, w⟩ := c
    simp only [Memory.wfFrom, Bool.and_eq_true, decide_eq_true_eq] at hm
    simp only [Memory.poke]
    split
    · rename_i hlt
      split
      · rename_i hv
        have hne : a ≠ d := by omega
        simp only [Memory.peek, if_neg hne, hv]
        exact peek_of_wfFrom hm.2 (by omega)
      · simp [Memory.peek]
    · split
      · subst a
        split
        · rename_i hv
          rw [hv]
          exact peek_of_wfFrom hm.2 (by omega)
        · simp [Memory.peek]
      · rename_i _ hne
        simp only [Memory.peek, if_neg hne]
        exact ih hm.2

theorem wfFrom_mono {lo lo' : Nat} {m : Memory} (h : lo' ≤ lo) (hm : Memory.wfFrom lo m = true) :
    Memory.wfFrom lo' m = true := by
  cases m with
  | nil => rfl
  | cons c m =>
    obtain ⟨d, w⟩ := c
    simp only [Memory.wfFrom, Bool.and_eq_true, decide_eq_true_eq] at hm ⊢
    exact ⟨⟨⟨by omega, hm.1.1.2⟩, hm.1.2⟩, hm.2⟩

theorem wfFrom_poke {lo : Nat} {m : Memory} (hm : Memory.wfFrom lo m = true) {a : Nat} (hlo : lo ≤ a)
    (ha : a < Config.memSize) (v : Byte) : Memory.wfFrom lo (Memory.poke m a v) = true := by
  induction m generalizing lo with
  | nil =>
    simp only [Memory.poke]
    split <;> simp_all [Memory.wfFrom]
  | cons c m ih =>
    obtain ⟨d, w⟩ := c
    have hc := hm
    simp only [Memory.wfFrom, Bool.and_eq_true, decide_eq_true_eq, Bool.not_eq_true', decide_eq_false_iff_not] at hc
    simp only [Memory.poke]
    split
    · split
      · exact hm
      · rename_i hv
        simp only [Memory.wfFrom, Bool.and_eq_true, decide_eq_true_eq, Bool.not_eq_true', decide_eq_false_iff_not]
        exact ⟨⟨⟨hlo, ha⟩, hv⟩, ⟨⟨by omega, hc.1.1.2⟩, hc.1.2⟩, hc.2⟩
    · split
      · split
        · exact wfFrom_mono (by omega) hc.2
        · rename_i hv
          simp only [Memory.wfFrom, Bool.and_eq_true, decide_eq_true_eq, Bool.not_eq_true', decide_eq_false_iff_not]
          exact ⟨⟨⟨hlo, ha⟩, hv⟩, by subst a; exact hc.2⟩
      · simp only [Memory.wfFrom, Bool.and_eq_true, decide_eq_true_eq, Bool.not_eq_true', decide_eq_false_iff_not]
        exact ⟨hc.1, ih hc.2 (by omega)⟩

/-- Writing one byte keeps the canonical form. -/
theorem wf_poke {m : Memory} (hm : Memory.wf m = true) {a : Nat} (ha : a < Config.memSize) (v : Byte) :
    Memory.wf (Memory.poke m a v) = true := wfFrom_poke hm (Nat.zero_le a) ha v

/-- The memory after reset has the canonical form. -/
theorem wf_nil : Memory.wf [] = true := rfl

/-! ### Byte sequences -/

/-- A sequence of writes leaves every address outside it alone. -/
theorem peek_pokeBytes_outside (m : Memory) {a b : Nat} (vs : List Byte) (h : b < a ∨ a + vs.length ≤ b) :
    Memory.peek (Memory.pokeBytes m a vs) b = Memory.peek m b := by
  induction vs generalizing m a with
  | nil => rfl
  | cons v vs ih =>
    simp only [List.length_cons] at h
    rw [Memory.pokeBytes, ih _ (by omega), peek_poke_ne _ _ (by omega)]

theorem wf_pokeBytes {m : Memory} (hm : Memory.wf m = true) {a : Nat} (vs : List Byte)
    (ha : a + vs.length ≤ Config.memSize) : Memory.wf (Memory.pokeBytes m a vs) = true := by
  induction vs generalizing m a with
  | nil => exact hm
  | cons v vs ih =>
    simp only [List.length_cons] at ha
    exact ih (wf_poke hm (by omega) v) (by omega)

/-- After a sequence of writes the addresses in it read as the bytes written. -/
theorem peek_pokeBytes_inside {m : Memory} (hm : Memory.wf m = true) {a : Nat} (vs : List Byte)
    (ha : a + vs.length ≤ Config.memSize) {k : Nat} (hk : k < vs.length) :
    Memory.peek (Memory.pokeBytes m a vs) (a + k) = vs[k] := by
  induction vs generalizing m a k with
  | nil => simp at hk
  | cons v vs ih =>
    simp only [List.length_cons] at ha hk
    rw [Memory.pokeBytes]
    cases k with
    | zero => rw [peek_pokeBytes_outside _ _ (by omega)]; exact peek_poke_same hm a v
    | succ k =>
      have hlt : a < Config.memSize := by omega
      have := ih (wf_poke hm hlt v) (a := a + 1) (by omega) (k := k) (by omega)
      rw [show a + (k + 1) = a + 1 + k by omega, this]
      rfl

/-! ### Bounds-checked sequences -/

/-- Reading a sequence inside memory gives the bytes there. -/
theorem memReadBytes_ok (m : Memory) {a n : Nat} (h : n = 0 ∨ a + n ≤ Config.memSize) :
    memReadBytes m a n = .ok ((List.range n).map fun k => Memory.peek m (a + k)) := by
  induction n generalizing a with
  | zero => rfl
  | succ n ih =>
    have ha : a < Config.memSize := by omega
    simp only [memReadBytes, memRead, if_pos ha]
    rw [ih (by omega)]
    simp [List.range_succ_eq_map, Function.comp_def, Nat.add_assoc, Nat.add_comm 1]

/-- Reading a sequence that leaves memory faults with the first address out of bounds. -/
theorem memReadBytes_error (m : Memory) {a n : Nat} (hn : 0 < n) (h : Config.memSize < a + n) :
    memReadBytes m a n = .error (.memoryFault (max a Config.memSize)) := by
  induction n generalizing a with
  | zero => omega
  | succ n ih =>
    by_cases ha : a < Config.memSize
    · simp only [memReadBytes, memRead, if_pos ha]
      rw [ih (by omega) (by omega), show max (a + 1) Config.memSize = max a Config.memSize by omega]
    · simp only [memReadBytes, memRead, if_neg ha]
      rw [show max a Config.memSize = a by omega]

/-- Writing a sequence inside memory sets the bytes there. -/
theorem memWriteBytes_ok (m : Memory) {a : Nat} (vs : List Byte) (h : vs = [] ∨ a + vs.length ≤ Config.memSize) :
    memWriteBytes m a vs = .ok (Memory.pokeBytes m a vs) := by
  induction vs generalizing m a with
  | nil => rfl
  | cons v vs ih =>
    simp only [List.length_cons, reduceCtorEq, false_or] at h
    have ha : a < Config.memSize := by omega
    simp only [memWriteBytes, memWrite, if_pos ha, Memory.pokeBytes]
    exact ih _ (by right; omega)

/-- Writing a sequence that leaves memory faults with the first address out of bounds. -/
theorem memWriteBytes_error (m : Memory) {a : Nat} (vs : List Byte) (hn : vs ≠ [])
    (h : Config.memSize < a + vs.length) :
    memWriteBytes m a vs = .error (.memoryFault (max a Config.memSize)) := by
  induction vs generalizing m a with
  | nil => exact absurd rfl hn
  | cons v vs ih =>
    simp only [List.length_cons] at h
    by_cases ha : a < Config.memSize
    · simp only [memWriteBytes, memWrite, if_pos ha]
      have hvs : vs ≠ [] := by rintro rfl; simp at h; omega
      rw [ih _ hvs (by omega), show max (a + 1) Config.memSize = max a Config.memSize by omega]
    · simp only [memWriteBytes, memWrite, if_neg ha]
      rw [show max a Config.memSize = a by omega]

end Sys2Proof.Machine
end

