-- ==== Sys2Proof/Laws/State.lean ====
section
/-! SUPPORT. One lemma for each field of State under each named update of Machine/Ops.lean, and the values that
reading a register gives after each update. -/

namespace Sys2Proof.Machine

variable (s : State)

/-! ### setReg -/

@[simp] theorem setReg_v (r : RegIdx) (b : Byte) : (s.setReg r b).v = s.v.set r.toFin.val b r.toFin.isLt := rfl
@[simp] theorem setReg_I (r : RegIdx) (b : Byte) : (s.setReg r b).I = s.I := rfl
@[simp] theorem setReg_pc (r : RegIdx) (b : Byte) : (s.setReg r b).pc = s.pc := rfl
@[simp] theorem setReg_sp (r : RegIdx) (b : Byte) : (s.setReg r b).sp = s.sp := rfl
@[simp] theorem setReg_stack (r : RegIdx) (b : Byte) : (s.setReg r b).stack = s.stack := rfl
@[simp] theorem setReg_dt (r : RegIdx) (b : Byte) : (s.setReg r b).dt = s.dt := rfl
@[simp] theorem setReg_st (r : RegIdx) (b : Byte) : (s.setReg r b).st = s.st := rfl
@[simp] theorem setReg_fault (r : RegIdx) (b : Byte) : (s.setReg r b).fault = s.fault := rfl
@[simp] theorem setReg_mem (r : RegIdx) (b : Byte) : (s.setReg r b).mem = s.mem := rfl
@[simp] theorem setReg_fb (r : RegIdx) (b : Byte) : (s.setReg r b).fb = s.fb := rfl
@[simp] theorem setReg_dirty (r : RegIdx) (b : Byte) : (s.setReg r b).dirty = s.dirty := rfl
@[simp] theorem setReg_keys (r : RegIdx) (b : Byte) : (s.setReg r b).keys = s.keys := rfl
@[simp] theorem setReg_params (r : RegIdx) (b : Byte) : (s.setReg r b).params = s.params := rfl
@[simp] theorem setReg_draws (r : RegIdx) (b : Byte) : (s.setReg r b).draws = s.draws := rfl
@[simp] theorem setReg_schedule (r : RegIdx) (b : Byte) : (s.setReg r b).schedule = s.schedule := rfl

/-! ### setI -/

@[simp] theorem setI_v (a : Word) : (s.setI a).v = s.v := rfl
@[simp] theorem setI_I (a : Word) : (s.setI a).I = a := rfl
@[simp] theorem setI_pc (a : Word) : (s.setI a).pc = s.pc := rfl
@[simp] theorem setI_sp (a : Word) : (s.setI a).sp = s.sp := rfl
@[simp] theorem setI_stack (a : Word) : (s.setI a).stack = s.stack := rfl
@[simp] theorem setI_dt (a : Word) : (s.setI a).dt = s.dt := rfl
@[simp] theorem setI_st (a : Word) : (s.setI a).st = s.st := rfl
@[simp] theorem setI_fault (a : Word) : (s.setI a).fault = s.fault := rfl
@[simp] theorem setI_mem (a : Word) : (s.setI a).mem = s.mem := rfl
@[simp] theorem setI_fb (a : Word) : (s.setI a).fb = s.fb := rfl
@[simp] theorem setI_dirty (a : Word) : (s.setI a).dirty = s.dirty := rfl
@[simp] theorem setI_keys (a : Word) : (s.setI a).keys = s.keys := rfl
@[simp] theorem setI_params (a : Word) : (s.setI a).params = s.params := rfl
@[simp] theorem setI_draws (a : Word) : (s.setI a).draws = s.draws := rfl
@[simp] theorem setI_schedule (a : Word) : (s.setI a).schedule = s.schedule := rfl

/-! ### setPc -/

@[simp] theorem setPc_v (a : Word) : (s.setPc a).v = s.v := rfl
@[simp] theorem setPc_I (a : Word) : (s.setPc a).I = s.I := rfl
@[simp] theorem setPc_pc (a : Word) : (s.setPc a).pc = a := rfl
@[simp] theorem setPc_sp (a : Word) : (s.setPc a).sp = s.sp := rfl
@[simp] theorem setPc_stack (a : Word) : (s.setPc a).stack = s.stack := rfl
@[simp] theorem setPc_dt (a : Word) : (s.setPc a).dt = s.dt := rfl
@[simp] theorem setPc_st (a : Word) : (s.setPc a).st = s.st := rfl
@[simp] theorem setPc_fault (a : Word) : (s.setPc a).fault = s.fault := rfl
@[simp] theorem setPc_mem (a : Word) : (s.setPc a).mem = s.mem := rfl
@[simp] theorem setPc_fb (a : Word) : (s.setPc a).fb = s.fb := rfl
@[simp] theorem setPc_dirty (a : Word) : (s.setPc a).dirty = s.dirty := rfl
@[simp] theorem setPc_keys (a : Word) : (s.setPc a).keys = s.keys := rfl
@[simp] theorem setPc_params (a : Word) : (s.setPc a).params = s.params := rfl
@[simp] theorem setPc_draws (a : Word) : (s.setPc a).draws = s.draws := rfl
@[simp] theorem setPc_schedule (a : Word) : (s.setPc a).schedule = s.schedule := rfl

/-! ### setCallStack -/

@[simp] theorem setCallStack_v (n : Fin 17) (e : Vector Word 16) : (s.setCallStack n e).v = s.v := rfl
@[simp] theorem setCallStack_I (n : Fin 17) (e : Vector Word 16) : (s.setCallStack n e).I = s.I := rfl
@[simp] theorem setCallStack_pc (n : Fin 17) (e : Vector Word 16) : (s.setCallStack n e).pc = s.pc := rfl
@[simp] theorem setCallStack_sp (n : Fin 17) (e : Vector Word 16) : (s.setCallStack n e).sp = n := rfl
@[simp] theorem setCallStack_stack (n : Fin 17) (e : Vector Word 16) : (s.setCallStack n e).stack = e := rfl
@[simp] theorem setCallStack_dt (n : Fin 17) (e : Vector Word 16) : (s.setCallStack n e).dt = s.dt := rfl
@[simp] theorem setCallStack_st (n : Fin 17) (e : Vector Word 16) : (s.setCallStack n e).st = s.st := rfl
@[simp] theorem setCallStack_fault (n : Fin 17) (e : Vector Word 16) : (s.setCallStack n e).fault = s.fault := rfl
@[simp] theorem setCallStack_mem (n : Fin 17) (e : Vector Word 16) : (s.setCallStack n e).mem = s.mem := rfl
@[simp] theorem setCallStack_fb (n : Fin 17) (e : Vector Word 16) : (s.setCallStack n e).fb = s.fb := rfl
@[simp] theorem setCallStack_dirty (n : Fin 17) (e : Vector Word 16) : (s.setCallStack n e).dirty = s.dirty := rfl
@[simp] theorem setCallStack_keys (n : Fin 17) (e : Vector Word 16) : (s.setCallStack n e).keys = s.keys := rfl
@[simp] theorem setCallStack_params (n : Fin 17) (e : Vector Word 16) : (s.setCallStack n e).params = s.params := rfl
@[simp] theorem setCallStack_draws (n : Fin 17) (e : Vector Word 16) : (s.setCallStack n e).draws = s.draws := rfl
@[simp] theorem setCallStack_schedule (n : Fin 17) (e : Vector Word 16) : (s.setCallStack n e).schedule = s.schedule := rfl

/-! ### setDt -/

@[simp] theorem setDt_v (b : Byte) : (s.setDt b).v = s.v := rfl
@[simp] theorem setDt_I (b : Byte) : (s.setDt b).I = s.I := rfl
@[simp] theorem setDt_pc (b : Byte) : (s.setDt b).pc = s.pc := rfl
@[simp] theorem setDt_sp (b : Byte) : (s.setDt b).sp = s.sp := rfl
@[simp] theorem setDt_stack (b : Byte) : (s.setDt b).stack = s.stack := rfl
@[simp] theorem setDt_dt (b : Byte) : (s.setDt b).dt = b := rfl
@[simp] theorem setDt_st (b : Byte) : (s.setDt b).st = s.st := rfl
@[simp] theorem setDt_fault (b : Byte) : (s.setDt b).fault = s.fault := rfl
@[simp] theorem setDt_mem (b : Byte) : (s.setDt b).mem = s.mem := rfl
@[simp] theorem setDt_fb (b : Byte) : (s.setDt b).fb = s.fb := rfl
@[simp] theorem setDt_dirty (b : Byte) : (s.setDt b).dirty = s.dirty := rfl
@[simp] theorem setDt_keys (b : Byte) : (s.setDt b).keys = s.keys := rfl
@[simp] theorem setDt_params (b : Byte) : (s.setDt b).params = s.params := rfl
@[simp] theorem setDt_draws (b : Byte) : (s.setDt b).draws = s.draws := rfl
@[simp] theorem setDt_schedule (b : Byte) : (s.setDt b).schedule = s.schedule := rfl

/-! ### setSt -/

@[simp] theorem setSt_v (b : Byte) : (s.setSt b).v = s.v := rfl
@[simp] theorem setSt_I (b : Byte) : (s.setSt b).I = s.I := rfl
@[simp] theorem setSt_pc (b : Byte) : (s.setSt b).pc = s.pc := rfl
@[simp] theorem setSt_sp (b : Byte) : (s.setSt b).sp = s.sp := rfl
@[simp] theorem setSt_stack (b : Byte) : (s.setSt b).stack = s.stack := rfl
@[simp] theorem setSt_dt (b : Byte) : (s.setSt b).dt = s.dt := rfl
@[simp] theorem setSt_st (b : Byte) : (s.setSt b).st = b := rfl
@[simp] theorem setSt_fault (b : Byte) : (s.setSt b).fault = s.fault := rfl
@[simp] theorem setSt_mem (b : Byte) : (s.setSt b).mem = s.mem := rfl
@[simp] theorem setSt_fb (b : Byte) : (s.setSt b).fb = s.fb := rfl
@[simp] theorem setSt_dirty (b : Byte) : (s.setSt b).dirty = s.dirty := rfl
@[simp] theorem setSt_keys (b : Byte) : (s.setSt b).keys = s.keys := rfl
@[simp] theorem setSt_params (b : Byte) : (s.setSt b).params = s.params := rfl
@[simp] theorem setSt_draws (b : Byte) : (s.setSt b).draws = s.draws := rfl
@[simp] theorem setSt_schedule (b : Byte) : (s.setSt b).schedule = s.schedule := rfl

/-! ### setFault -/

@[simp] theorem setFault_v (f : Option FaultRecord) : (s.setFault f).v = s.v := rfl
@[simp] theorem setFault_I (f : Option FaultRecord) : (s.setFault f).I = s.I := rfl
@[simp] theorem setFault_pc (f : Option FaultRecord) : (s.setFault f).pc = s.pc := rfl
@[simp] theorem setFault_sp (f : Option FaultRecord) : (s.setFault f).sp = s.sp := rfl
@[simp] theorem setFault_stack (f : Option FaultRecord) : (s.setFault f).stack = s.stack := rfl
@[simp] theorem setFault_dt (f : Option FaultRecord) : (s.setFault f).dt = s.dt := rfl
@[simp] theorem setFault_st (f : Option FaultRecord) : (s.setFault f).st = s.st := rfl
@[simp] theorem setFault_fault (f : Option FaultRecord) : (s.setFault f).fault = f := rfl
@[simp] theorem setFault_mem (f : Option FaultRecord) : (s.setFault f).mem = s.mem := rfl
@[simp] theorem setFault_fb (f : Option FaultRecord) : (s.setFault f).fb = s.fb := rfl
@[simp] theorem setFault_dirty (f : Option FaultRecord) : (s.setFault f).dirty = s.dirty := rfl
@[simp] theorem setFault_keys (f : Option FaultRecord) : (s.setFault f).keys = s.keys := rfl
@[simp] theorem setFault_params (f : Option FaultRecord) : (s.setFault f).params = s.params := rfl
@[simp] theorem setFault_draws (f : Option FaultRecord) : (s.setFault f).draws = s.draws := rfl
@[simp] theorem setFault_schedule (f : Option FaultRecord) : (s.setFault f).schedule = s.schedule := rfl

/-! ### setMem -/

@[simp] theorem setMem_v (m : Memory) : (s.setMem m).v = s.v := rfl
@[simp] theorem setMem_I (m : Memory) : (s.setMem m).I = s.I := rfl
@[simp] theorem setMem_pc (m : Memory) : (s.setMem m).pc = s.pc := rfl
@[simp] theorem setMem_sp (m : Memory) : (s.setMem m).sp = s.sp := rfl
@[simp] theorem setMem_stack (m : Memory) : (s.setMem m).stack = s.stack := rfl
@[simp] theorem setMem_dt (m : Memory) : (s.setMem m).dt = s.dt := rfl
@[simp] theorem setMem_st (m : Memory) : (s.setMem m).st = s.st := rfl
@[simp] theorem setMem_fault (m : Memory) : (s.setMem m).fault = s.fault := rfl
@[simp] theorem setMem_mem (m : Memory) : (s.setMem m).mem = m := rfl
@[simp] theorem setMem_fb (m : Memory) : (s.setMem m).fb = s.fb := rfl
@[simp] theorem setMem_dirty (m : Memory) : (s.setMem m).dirty = s.dirty := rfl
@[simp] theorem setMem_keys (m : Memory) : (s.setMem m).keys = s.keys := rfl
@[simp] theorem setMem_params (m : Memory) : (s.setMem m).params = s.params := rfl
@[simp] theorem setMem_draws (m : Memory) : (s.setMem m).draws = s.draws := rfl
@[simp] theorem setMem_schedule (m : Memory) : (s.setMem m).schedule = s.schedule := rfl

/-! ### setDisplay -/

@[simp] theorem setDisplay_v (fb : Framebuffer) (d : Bool) : (s.setDisplay fb d).v = s.v := rfl
@[simp] theorem setDisplay_I (fb : Framebuffer) (d : Bool) : (s.setDisplay fb d).I = s.I := rfl
@[simp] theorem setDisplay_pc (fb : Framebuffer) (d : Bool) : (s.setDisplay fb d).pc = s.pc := rfl
@[simp] theorem setDisplay_sp (fb : Framebuffer) (d : Bool) : (s.setDisplay fb d).sp = s.sp := rfl
@[simp] theorem setDisplay_stack (fb : Framebuffer) (d : Bool) : (s.setDisplay fb d).stack = s.stack := rfl
@[simp] theorem setDisplay_dt (fb : Framebuffer) (d : Bool) : (s.setDisplay fb d).dt = s.dt := rfl
@[simp] theorem setDisplay_st (fb : Framebuffer) (d : Bool) : (s.setDisplay fb d).st = s.st := rfl
@[simp] theorem setDisplay_fault (fb : Framebuffer) (d : Bool) : (s.setDisplay fb d).fault = s.fault := rfl
@[simp] theorem setDisplay_mem (fb : Framebuffer) (d : Bool) : (s.setDisplay fb d).mem = s.mem := rfl
@[simp] theorem setDisplay_fb (fb : Framebuffer) (d : Bool) : (s.setDisplay fb d).fb = fb := rfl
@[simp] theorem setDisplay_dirty (fb : Framebuffer) (d : Bool) : (s.setDisplay fb d).dirty = d := rfl
@[simp] theorem setDisplay_keys (fb : Framebuffer) (d : Bool) : (s.setDisplay fb d).keys = s.keys := rfl
@[simp] theorem setDisplay_params (fb : Framebuffer) (d : Bool) : (s.setDisplay fb d).params = s.params := rfl
@[simp] theorem setDisplay_draws (fb : Framebuffer) (d : Bool) : (s.setDisplay fb d).draws = s.draws := rfl
@[simp] theorem setDisplay_schedule (fb : Framebuffer) (d : Bool) : (s.setDisplay fb d).schedule = s.schedule := rfl

/-! ### setKeys -/

@[simp] theorem setKeys_v (k : Vector Bool 16) : (s.setKeys k).v = s.v := rfl
@[simp] theorem setKeys_I (k : Vector Bool 16) : (s.setKeys k).I = s.I := rfl
@[simp] theorem setKeys_pc (k : Vector Bool 16) : (s.setKeys k).pc = s.pc := rfl
@[simp] theorem setKeys_sp (k : Vector Bool 16) : (s.setKeys k).sp = s.sp := rfl
@[simp] theorem setKeys_stack (k : Vector Bool 16) : (s.setKeys k).stack = s.stack := rfl
@[simp] theorem setKeys_dt (k : Vector Bool 16) : (s.setKeys k).dt = s.dt := rfl
@[simp] theorem setKeys_st (k : Vector Bool 16) : (s.setKeys k).st = s.st := rfl
@[simp] theorem setKeys_fault (k : Vector Bool 16) : (s.setKeys k).fault = s.fault := rfl
@[simp] theorem setKeys_mem (k : Vector Bool 16) : (s.setKeys k).mem = s.mem := rfl
@[simp] theorem setKeys_fb (k : Vector Bool 16) : (s.setKeys k).fb = s.fb := rfl
@[simp] theorem setKeys_dirty (k : Vector Bool 16) : (s.setKeys k).dirty = s.dirty := rfl
@[simp] theorem setKeys_keys (k : Vector Bool 16) : (s.setKeys k).keys = k := rfl
@[simp] theorem setKeys_params (k : Vector Bool 16) : (s.setKeys k).params = s.params := rfl
@[simp] theorem setKeys_draws (k : Vector Bool 16) : (s.setKeys k).draws = s.draws := rfl
@[simp] theorem setKeys_schedule (k : Vector Bool 16) : (s.setKeys k).schedule = s.schedule := rfl

/-! ### setDraws -/

@[simp] theorem setDraws_v (n : Nat) : (s.setDraws n).v = s.v := rfl
@[simp] theorem setDraws_I (n : Nat) : (s.setDraws n).I = s.I := rfl
@[simp] theorem setDraws_pc (n : Nat) : (s.setDraws n).pc = s.pc := rfl
@[simp] theorem setDraws_sp (n : Nat) : (s.setDraws n).sp = s.sp := rfl
@[simp] theorem setDraws_stack (n : Nat) : (s.setDraws n).stack = s.stack := rfl
@[simp] theorem setDraws_dt (n : Nat) : (s.setDraws n).dt = s.dt := rfl
@[simp] theorem setDraws_st (n : Nat) : (s.setDraws n).st = s.st := rfl
@[simp] theorem setDraws_fault (n : Nat) : (s.setDraws n).fault = s.fault := rfl
@[simp] theorem setDraws_mem (n : Nat) : (s.setDraws n).mem = s.mem := rfl
@[simp] theorem setDraws_fb (n : Nat) : (s.setDraws n).fb = s.fb := rfl
@[simp] theorem setDraws_dirty (n : Nat) : (s.setDraws n).dirty = s.dirty := rfl
@[simp] theorem setDraws_keys (n : Nat) : (s.setDraws n).keys = s.keys := rfl
@[simp] theorem setDraws_params (n : Nat) : (s.setDraws n).params = s.params := rfl
@[simp] theorem setDraws_draws (n : Nat) : (s.setDraws n).draws = n := rfl
@[simp] theorem setDraws_schedule (n : Nat) : (s.setDraws n).schedule = s.schedule := rfl

/-! ### setSchedule -/

@[simp] theorem setSchedule_v (ops : List Operation) : (s.setSchedule ops).v = s.v := rfl
@[simp] theorem setSchedule_I (ops : List Operation) : (s.setSchedule ops).I = s.I := rfl
@[simp] theorem setSchedule_pc (ops : List Operation) : (s.setSchedule ops).pc = s.pc := rfl
@[simp] theorem setSchedule_sp (ops : List Operation) : (s.setSchedule ops).sp = s.sp := rfl
@[simp] theorem setSchedule_stack (ops : List Operation) : (s.setSchedule ops).stack = s.stack := rfl
@[simp] theorem setSchedule_dt (ops : List Operation) : (s.setSchedule ops).dt = s.dt := rfl
@[simp] theorem setSchedule_st (ops : List Operation) : (s.setSchedule ops).st = s.st := rfl
@[simp] theorem setSchedule_fault (ops : List Operation) : (s.setSchedule ops).fault = s.fault := rfl
@[simp] theorem setSchedule_mem (ops : List Operation) : (s.setSchedule ops).mem = s.mem := rfl
@[simp] theorem setSchedule_fb (ops : List Operation) : (s.setSchedule ops).fb = s.fb := rfl
@[simp] theorem setSchedule_dirty (ops : List Operation) : (s.setSchedule ops).dirty = s.dirty := rfl
@[simp] theorem setSchedule_keys (ops : List Operation) : (s.setSchedule ops).keys = s.keys := rfl
@[simp] theorem setSchedule_params (ops : List Operation) : (s.setSchedule ops).params = s.params := rfl
@[simp] theorem setSchedule_draws (ops : List Operation) : (s.setSchedule ops).draws = s.draws := rfl
@[simp] theorem setSchedule_schedule (ops : List Operation) : (s.setSchedule ops).schedule = ops := rfl

/-! ### Reading a register, a byte or a stack entry after an update -/

theorem reg_setReg (r q : RegIdx) (b : Byte) : (s.setReg r b).reg q = if q = r then b else s.reg q := by
  simp only [State.reg, State.setReg, Vector.get_eq_getElem, Vector.getElem_set]
  by_cases h : q = r
  · simp [h]
  · have : ¬ r.toNat = q.toNat := fun e => h (BitVec.eq_of_toNat_eq e.symm)
    simp [h, this]

@[simp] theorem reg_setReg_same (r : RegIdx) (b : Byte) : (s.setReg r b).reg r = b := by simp [reg_setReg]

theorem reg_setReg_ne {r q : RegIdx} (b : Byte) (h : q ≠ r) : (s.setReg r b).reg q = s.reg q := by
  simp [reg_setReg, h]
@[simp] theorem setI_reg (a : Word) (r : RegIdx) : (s.setI a).reg r = s.reg r := rfl
@[simp] theorem setPc_reg (a : Word) (r : RegIdx) : (s.setPc a).reg r = s.reg r := rfl
@[simp] theorem setCallStack_reg (n : Fin 17) (e : Vector Word 16) (r : RegIdx) : (s.setCallStack n e).reg r = s.reg r := rfl
@[simp] theorem setDt_reg (b : Byte) (r : RegIdx) : (s.setDt b).reg r = s.reg r := rfl
@[simp] theorem setSt_reg (b : Byte) (r : RegIdx) : (s.setSt b).reg r = s.reg r := rfl
@[simp] theorem setFault_reg (f : Option FaultRecord) (r : RegIdx) : (s.setFault f).reg r = s.reg r := rfl
@[simp] theorem setMem_reg (m : Memory) (r : RegIdx) : (s.setMem m).reg r = s.reg r := rfl
@[simp] theorem setDisplay_reg (fb : Framebuffer) (d : Bool) (r : RegIdx) : (s.setDisplay fb d).reg r = s.reg r := rfl
@[simp] theorem setKeys_reg (k : Vector Bool 16) (r : RegIdx) : (s.setKeys k).reg r = s.reg r := rfl
@[simp] theorem setDraws_reg (n : Nat) (r : RegIdx) : (s.setDraws n).reg r = s.reg r := rfl
@[simp] theorem setSchedule_reg (ops : List Operation) (r : RegIdx) : (s.setSchedule ops).reg r = s.reg r := rfl
@[simp] theorem setReg_byte (r : RegIdx) (b : Byte) (x : Nat) : (s.setReg r b).byte x = s.byte x := rfl
@[simp] theorem setI_byte (a : Word) (x : Nat) : (s.setI a).byte x = s.byte x := rfl
@[simp] theorem setPc_byte (a : Word) (x : Nat) : (s.setPc a).byte x = s.byte x := rfl
@[simp] theorem setCallStack_byte (n : Fin 17) (e : Vector Word 16) (x : Nat) : (s.setCallStack n e).byte x = s.byte x := rfl
@[simp] theorem setDt_byte (b : Byte) (x : Nat) : (s.setDt b).byte x = s.byte x := rfl
@[simp] theorem setSt_byte (b : Byte) (x : Nat) : (s.setSt b).byte x = s.byte x := rfl
@[simp] theorem setFault_byte (f : Option FaultRecord) (x : Nat) : (s.setFault f).byte x = s.byte x := rfl
@[simp] theorem setMem_byte (m : Memory) (x : Nat) : (s.setMem m).byte x = Memory.peek m x := rfl
@[simp] theorem setDisplay_byte (fb : Framebuffer) (d : Bool) (x : Nat) : (s.setDisplay fb d).byte x = s.byte x := rfl
@[simp] theorem setKeys_byte (k : Vector Bool 16) (x : Nat) : (s.setKeys k).byte x = s.byte x := rfl
@[simp] theorem setDraws_byte (n : Nat) (x : Nat) : (s.setDraws n).byte x = s.byte x := rfl
@[simp] theorem setSchedule_byte (ops : List Operation) (x : Nat) : (s.setSchedule ops).byte x = s.byte x := rfl
@[simp] theorem setReg_entry (r : RegIdx) (b : Byte) (k : Fin 16) : (s.setReg r b).entry k = s.entry k := rfl
@[simp] theorem setI_entry (a : Word) (k : Fin 16) : (s.setI a).entry k = s.entry k := rfl
@[simp] theorem setPc_entry (a : Word) (k : Fin 16) : (s.setPc a).entry k = s.entry k := rfl
@[simp] theorem setDt_entry (b : Byte) (k : Fin 16) : (s.setDt b).entry k = s.entry k := rfl
@[simp] theorem setSt_entry (b : Byte) (k : Fin 16) : (s.setSt b).entry k = s.entry k := rfl
@[simp] theorem setFault_entry (f : Option FaultRecord) (k : Fin 16) : (s.setFault f).entry k = s.entry k := rfl
@[simp] theorem setMem_entry (m : Memory) (k : Fin 16) : (s.setMem m).entry k = s.entry k := rfl
@[simp] theorem setDisplay_entry (fb : Framebuffer) (d : Bool) (k : Fin 16) : (s.setDisplay fb d).entry k = s.entry k := rfl
@[simp] theorem setKeys_entry (q : Vector Bool 16) (k : Fin 16) : (s.setKeys q).entry k = s.entry k := rfl
@[simp] theorem setDraws_entry (n : Nat) (k : Fin 16) : (s.setDraws n).entry k = s.entry k := rfl
@[simp] theorem setSchedule_entry (ops : List Operation) (k : Fin 16) : (s.setSchedule ops).entry k = s.entry k := rfl
@[simp] theorem setCallStack_entry (n : Fin 17) (e : Vector Word 16) (k : Fin 16) :
    (s.setCallStack n e).entry k = e.get k := rfl

/-! ### The pc updates -/

@[simp] theorem advance_pc : (advance s).pc = s.pc + 2#16 := rfl
@[simp] theorem skipIf_pc (c : Bool) : (skipIf c s).pc = if c then s.pc + 4#16 else s.pc + 2#16 := rfl
@[simp] theorem advance_v : (advance s).v = s.v := rfl
@[simp] theorem skipIf_v (c : Bool) : (skipIf c s).v = s.v := rfl
@[simp] theorem advance_I : (advance s).I = s.I := rfl
@[simp] theorem skipIf_I (c : Bool) : (skipIf c s).I = s.I := rfl
@[simp] theorem advance_sp : (advance s).sp = s.sp := rfl
@[simp] theorem skipIf_sp (c : Bool) : (skipIf c s).sp = s.sp := rfl
@[simp] theorem advance_stack : (advance s).stack = s.stack := rfl
@[simp] theorem skipIf_stack (c : Bool) : (skipIf c s).stack = s.stack := rfl
@[simp] theorem advance_dt : (advance s).dt = s.dt := rfl
@[simp] theorem skipIf_dt (c : Bool) : (skipIf c s).dt = s.dt := rfl
@[simp] theorem advance_st : (advance s).st = s.st := rfl
@[simp] theorem skipIf_st (c : Bool) : (skipIf c s).st = s.st := rfl
@[simp] theorem advance_fault : (advance s).fault = s.fault := rfl
@[simp] theorem skipIf_fault (c : Bool) : (skipIf c s).fault = s.fault := rfl
@[simp] theorem advance_mem : (advance s).mem = s.mem := rfl
@[simp] theorem skipIf_mem (c : Bool) : (skipIf c s).mem = s.mem := rfl
@[simp] theorem advance_fb : (advance s).fb = s.fb := rfl
@[simp] theorem skipIf_fb (c : Bool) : (skipIf c s).fb = s.fb := rfl
@[simp] theorem advance_dirty : (advance s).dirty = s.dirty := rfl
@[simp] theorem skipIf_dirty (c : Bool) : (skipIf c s).dirty = s.dirty := rfl
@[simp] theorem advance_keys : (advance s).keys = s.keys := rfl
@[simp] theorem skipIf_keys (c : Bool) : (skipIf c s).keys = s.keys := rfl
@[simp] theorem advance_params : (advance s).params = s.params := rfl
@[simp] theorem skipIf_params (c : Bool) : (skipIf c s).params = s.params := rfl
@[simp] theorem advance_draws : (advance s).draws = s.draws := rfl
@[simp] theorem skipIf_draws (c : Bool) : (skipIf c s).draws = s.draws := rfl
@[simp] theorem advance_schedule : (advance s).schedule = s.schedule := rfl
@[simp] theorem skipIf_schedule (c : Bool) : (skipIf c s).schedule = s.schedule := rfl
@[simp] theorem advance_reg (r : RegIdx) : (advance s).reg r = s.reg r := rfl
@[simp] theorem skipIf_reg (c : Bool) (r : RegIdx) : (skipIf c s).reg r = s.reg r := rfl
@[simp] theorem advance_byte (a : Nat) : (advance s).byte a = s.byte a := rfl
@[simp] theorem skipIf_byte (c : Bool) (a : Nat) : (skipIf c s).byte a = s.byte a := rfl
@[simp] theorem advance_entry (k : Fin 16) : (advance s).entry k = s.entry k := rfl
@[simp] theorem skipIf_entry (c : Bool) (k : Fin 16) : (skipIf c s).entry k = s.entry k := rfl

end Sys2Proof.Machine
end

