-- ==== Sys2Proof/Laws/Ops.lean ====
section
/-! SUPPORT. One lemma for each shared operation of Machine/Ops.lean, Operands.lean, Flags.lean and Cycle.lean that says
everything it can do. -/

namespace Sys2Proof.Machine

/-! ### The call stack -/

theorem push_ok {a : Word} {s : State} (h : s.sp.val < 16) :
    push a s = .ok (s.setCallStack ⟨s.sp.val + 1, Nat.succ_lt_succ h⟩ (s.stack.set s.sp.val a h)) :=
  dif_pos h

theorem push_full {a : Word} {s : State} (h : s.sp.val = 16) : push a s = .error .callStackOverflow :=
  dif_neg (by simp [h, Config.stackDepth])

theorem pop_ok {s : State} (h : 0 < s.sp.val) :
    pop s = .ok (s.stack[s.sp.val - 1]'(by have := s.sp.isLt; omega),
      s.setCallStack ⟨s.sp.val - 1, by have := s.sp.isLt; omega⟩ s.stack) := dif_pos h

theorem pop_empty {s : State} (h : s.sp.val = 0) : pop s = .error .callStackUnderflow := dif_neg (by omega)

/-- The entries after a push. -/
theorem entry_push {s : State} (h : s.sp.val < 16) (a : Word) (n : Fin 17) (k : Fin 16) :
    (s.setCallStack n (s.stack.set s.sp.val a h)).entry k = if k.val = s.sp.val then a else s.entry k := by
  simp only [State.entry, setCallStack_stack, Vector.get_eq_getElem, Vector.getElem_set]
  simp only [eq_comm]

/-! ### Completing an instruction -/

@[simp] theorem complete_ok (s t : State) : complete s (.ok t) = .next t := rfl
@[simp] theorem complete_error (s : State) (f : FaultRecord) : complete s (.error f) = raise f s := rfl
theorem raise_eq (f : FaultRecord) (s : State) : raise f s = .next (s.setFault (some f)) := rfl

/-- All that completing can answer: the completed state, or the fault taken in the state before. -/
theorem complete_cases {s t : State} {e : Except FaultRecord State} (h : complete s e = .next t) :
    e = .ok t ∨ ∃ f, e = .error f ∧ t = s.setFault (some f) := by
  cases e with
  | ok u => exact .inl (by simpa using h)
  | error f => exact .inr ⟨f, rfl, by simpa [raise_eq] using h.symm⟩

/-- Completing always answers a next state. -/
theorem complete_answers (s : State) (e : Except FaultRecord State) : ∃ t, complete s e = .next t := by
  cases e with
  | ok u => exact ⟨u, rfl⟩
  | error f => exact ⟨_, raise_eq f s⟩

/-! ### Operands -/

/-- Registers after a range write: register `i + k` holds the `k`-th byte, the others are unchanged. -/
theorem setRegsFrom_reg (bs : List Byte) (i : Nat) (s : State) (h : i + bs.length ≤ 16) (r : RegIdx) :
    (setRegsFrom i bs s).reg r =
      if i ≤ r.toNat ∧ r.toNat < i + bs.length then bs.getD (r.toNat - i) 0 else s.reg r := by
  induction bs generalizing i s with
  | nil => simp only [setRegsFrom, List.length_nil]; rw [if_neg (by omega)]
  | cons b bs ih =>
    simp only [List.length_cons] at h ⊢
    rw [setRegsFrom, ih _ _ (by omega), reg_setReg]
    have hi : (BitVec.ofNat 4 i).toNat = i := by simp; omega
    have hr : r = BitVec.ofNat 4 i ↔ r.toNat = i := by rw [← BitVec.toNat_inj, hi]
    simp only [hr]
    by_cases h1 : r.toNat = i
    · rw [if_neg (by omega), if_pos h1, if_pos (by omega)]
      simp [h1]
    · rw [if_neg h1]
      by_cases h2 : i + 1 ≤ r.toNat ∧ r.toNat < i + 1 + bs.length
      · rw [if_pos h2, if_pos (by omega), show r.toNat - i = (r.toNat - (i + 1)) + 1 by omega]
        simp
      · rw [if_neg h2, if_neg (by omega)]

/-- A range write touches nothing but the general registers. -/
theorem setRegsFrom_eq (bs : List Byte) (i : Nat) (s : State) :
    setRegsFrom i bs s = { s with v := (setRegsFrom i bs s).v } := by
  induction bs generalizing i s with
  | nil => rfl
  | cons b bs ih => rw [setRegsFrom, ih]; rfl

@[simp] theorem regRange_length (s : State) (x : RegIdx) : (regRange s x).length = x.toNat + 1 := by simp [regRange]

theorem regRange_getElem (s : State) (x : RegIdx) {k : Nat} (h : k < (regRange s x).length) :
    (regRange s x)[k] = s.reg (BitVec.ofNat 4 k) := by simp [regRange]

/-- The lowest held key is held, and no lower key is. -/
theorem lowestKey_some {s : State} {k : Fin 16} (h : lowestKey s = some k) :
    s.keys.get k = true ∧ ∀ j : Fin 16, j < k → s.keys.get j = false := by
  unfold lowestKey at h
  rw [List.find?_eq_some_iff_append] at h
  obtain ⟨hk, as, bs, hl, ha⟩ := h
  refine ⟨hk, fun j hj => ?_⟩
  have hmem : j ∈ as := by
    have hs : (List.finRange 16).Pairwise (· < ·) := List.pairwise_lt_finRange 16
    rw [hl, List.pairwise_append] at hs
    have hin : j ∈ as ++ k :: bs := hl ▸ List.mem_finRange j
    simp only [List.mem_append, List.mem_cons] at hin
    rcases hin with h1 | h1 | h1
    · exact h1
    · exact absurd h1 (ne_of_lt hj)
    · have := (List.pairwise_cons.1 hs.2.1).1 j h1
      exact absurd hj (not_lt.2 (le_of_lt this))
  simpa using ha j hmem

/-- With no key found, none is held. -/
theorem lowestKey_none {s : State} : lowestKey s = none ↔ ∀ j : Fin 16, s.keys.get j = false := by
  simp [lowestKey, List.find?_eq_none]

/-! ### Fetch -/

/-- A fetch inside memory composes the two bytes at pc (R52, R76). -/
theorem fetch_ok {s : State} (h : s.pc.toNat < 0xFFF) :
    fetch s = .ok (wordOfBytes (s.byte s.pc.toNat) (s.byte (s.pc.toNat + 1))) := by
  have h1 : s.pc.toNat < Config.memSize := by rw [memSize_eq]; omega
  have h2 : s.pc.toNat + 1 < Config.memSize := by rw [memSize_eq]; omega
  simp [fetch, memRead, h1, h2, State.byte]

/-- A fetch at or above 0xFFF faults with the first address above memory (R76, R153). -/
theorem fetch_error {s : State} (h : 0xFFF ≤ s.pc.toNat) :
    fetch s = .error (.memoryFault (max s.pc.toNat 0x1000)) := by
  by_cases h1 : s.pc.toNat < Config.memSize
  · have h0 := h1
    rw [memSize_eq] at h0
    have h2 : ¬ s.pc.toNat + 1 < Config.memSize := by rw [memSize_eq]; omega
    simp only [fetch, memRead, if_pos h1, if_neg h2]
    rw [show max s.pc.toNat 0x1000 = s.pc.toNat + 1 by omega]
  · have h0 := h1
    rw [memSize_eq] at h0
    simp only [fetch, memRead, if_neg h1]
    rw [show max s.pc.toNat 0x1000 = s.pc.toNat by omega]

/-! ### Dispatch -/

/-- Every instruction answers a next state: the faults of this machine are next states too. -/
theorem exec_answers (i : Instr) (s : State) : ∃ t, exec i s = .next t := by
  cases i with
  | ret => exact complete_answers s _
  | call nnn => exact complete_answers s _
  | drw x y n => exact complete_answers s _
  | ldB x => exact complete_answers s _
  | storeRegs x => exact complete_answers s _
  | loadRegs x => exact complete_answers s _
  | ldVxK x =>
    simp only [exec, execLdVxK]
    split <;> exact ⟨_, rfl⟩
  | sys nnn => exact ⟨_, rfl⟩
  | cls => exact ⟨_, rfl⟩
  | jp nnn => exact ⟨_, rfl⟩
  | seImm x nn => exact ⟨_, rfl⟩
  | sneImm x nn => exact ⟨_, rfl⟩
  | seReg x y => exact ⟨_, rfl⟩
  | ldImm x nn => exact ⟨_, rfl⟩
  | addImm x nn => exact ⟨_, rfl⟩
  | ldReg x y => exact ⟨_, rfl⟩
  | orReg x y => exact ⟨_, rfl⟩
  | andReg x y => exact ⟨_, rfl⟩
  | xorReg x y => exact ⟨_, rfl⟩
  | addReg x y => exact ⟨_, rfl⟩
  | subReg x y => exact ⟨_, rfl⟩
  | shr x y => exact ⟨_, rfl⟩
  | subnReg x y => exact ⟨_, rfl⟩
  | shl x y => exact ⟨_, rfl⟩
  | sneReg x y => exact ⟨_, rfl⟩
  | ldI nnn => exact ⟨_, rfl⟩
  | jpV0 nnn => exact ⟨_, rfl⟩
  | rnd x nn => exact ⟨_, rfl⟩
  | skp x => exact ⟨_, rfl⟩
  | sknp x => exact ⟨_, rfl⟩
  | ldVxDt x => exact ⟨_, rfl⟩
  | ldDtVx x => exact ⟨_, rfl⟩
  | ldStVx x => exact ⟨_, rfl⟩
  | addI x => exact ⟨_, rfl⟩
  | ldF x => exact ⟨_, rfl⟩

/-- All that one `Step` can do: nothing while halted; a fetch fault; an unknown word's fault; the decoded instruction. -/
theorem executorStep_cases (s : State) :
    ((∃ f, s.fault = some f) ∧ executorStep s = .next s) ∨
    (s.fault = none ∧ 0xFFF ≤ s.pc.toNat ∧ executorStep s = raise (.memoryFault (max s.pc.toNat 0x1000)) s) ∨
    (s.fault = none ∧ s.pc.toNat < 0xFFF ∧
      executorStep s = executeWord (wordOfBytes (s.byte s.pc.toNat) (s.byte (s.pc.toNat + 1))) s) := by
  cases hf : s.fault with
  | some f => exact .inl ⟨⟨f, rfl⟩, by simp [executorStep, hf]⟩
  | none =>
    by_cases h : s.pc.toNat < 0xFFF
    · exact .inr (.inr ⟨rfl, h, by simp [executorStep, hf, fetch_ok h]⟩)
    · exact .inr (.inl ⟨rfl, by omega, by simp [executorStep, hf, fetch_error (Nat.le_of_not_lt h)]⟩)

end Sys2Proof.Machine
end

