-- ==== Sys2Proof/Laws/Exec.lean ====
section
/-! SUPPORT. The instructions whose meaning may raise, as equations: what they answer when they do not. (The others
answer `next` by unfolding alone.) Their fault side follows from `push_full`, `pop_empty`, `memReadBytes_error` and
`memWriteBytes_error` with `complete_error`. -/

namespace Sys2Proof.Machine

variable {s : State}

theorem exec_call_ok (nnn : Addr12) (h : s.sp.val < 16) :
    exec (.call nnn) s = .next ((s.setCallStack ⟨s.sp.val + 1, Nat.succ_lt_succ h⟩
      (s.stack.set s.sp.val (s.pc + 2#16) h)).setPc (addrOperand nnn)) := by
  simp only [exec, execCall, push_ok h, complete_ok]

theorem exec_ret_ok (h : 0 < s.sp.val) :
    exec .ret s = .next ((s.setCallStack ⟨s.sp.val - 1, by have := s.sp.isLt; omega⟩ s.stack).setPc
      (s.entry ⟨s.sp.val - 1, by have := s.sp.isLt; omega⟩)) := by
  simp only [exec, execRet, pop_ok h, complete_ok]
  rfl

/-- The bytes of the `n` addresses from `I` upward. -/
def bytesAtI (s : State) (n : Nat) : List Byte := (List.range n).map fun k => s.byte (s.I.toNat + k)

theorem exec_drw_ok (x y : RegIdx) (n : Nibble) (h : n.toNat = 0 ∨ s.I.toNat + n.toNat ≤ 4096) :
    exec (.drw x y n) s =
      .next (advance ((s.setDisplay
        (blit ((s.reg x).toNat % 64) ((s.reg y).toNat % 32) (bytesAtI s n.toNat) s.fb).fb
        (s.dirty || (blit ((s.reg x).toNat % 64) ((s.reg y).toNat % 32) (bytesAtI s n.toNat) s.fb).changed)).setReg VF
        (flagByte (blit ((s.reg x).toNat % 64) ((s.reg y).toNat % 32) (bytesAtI s n.toNat) s.fb).collision))) := by
  simp only [exec, execDrw, memReadBytes_ok s.mem (a := s.I.toNat) (n := n.toNat) (by rw [memSize_eq]; exact h),
    complete_ok]
  rfl

theorem exec_ldB_ok (x : RegIdx) (h : s.I.toNat + 3 ≤ 4096) :
    exec (.ldB x) s = .next (advance (s.setMem (Memory.pokeBytes s.mem s.I.toNat (bcdDigits (s.reg x))))) := by
  simp only [exec, execLdB, memWriteBytes_ok s.mem (a := s.I.toNat) (bcdDigits (s.reg x))
    (.inr (by rw [memSize_eq]; exact h)), complete_ok]

theorem exec_storeRegs_ok (x : RegIdx) (h : s.I.toNat + (x.toNat + 1) ≤ 4096) :
    exec (.storeRegs x) s = .next (advance ((s.setMem (Memory.pokeBytes s.mem s.I.toNat (regRange s x))).setI
      (indexAfterTransfer s x))) := by
  simp only [exec, execStoreRegs, memWriteBytes_ok s.mem (a := s.I.toNat) (regRange s x)
    (.inr (by rw [memSize_eq, regRange_length]; exact h)), complete_ok]

/-- A register after FX65: the byte from `I` for the range, its own value above it. -/
theorem reg_setRegsFrom_bytesAtI (s : State) (x r : RegIdx) :
    (setRegsFrom 0 (bytesAtI s (x.toNat + 1)) s).reg r =
      if r.toNat ≤ x.toNat then s.byte (s.I.toNat + r.toNat) else s.reg r := by
  have hx := x.isLt
  rw [setRegsFrom_reg _ _ _ (by simp [bytesAtI]; omega)]
  by_cases h : r.toNat ≤ x.toNat
  · rw [if_pos (by simp [bytesAtI]; omega), if_pos h]
    simp [bytesAtI, List.getD, show r.toNat < x.toNat + 1 by omega]
  · rw [if_neg (by simp [bytesAtI]; omega), if_neg h]

theorem exec_loadRegs_ok (x : RegIdx) (h : s.I.toNat + (x.toNat + 1) ≤ 4096) :
    exec (.loadRegs x) s = .next (advance ((setRegsFrom 0 (bytesAtI s (x.toNat + 1)) s).setI
      (indexAfterTransfer s x))) := by
  simp only [exec, execLoadRegs, memReadBytes_ok s.mem (a := s.I.toNat) (n := x.toNat + 1)
    (.inr (by rw [memSize_eq]; exact h)), complete_ok]
  rfl

end Sys2Proof.Machine
end

