-- ==== Sys2Proof/Laws/Frame.lean ====
section
/-! SUPPORT. The frame of each kind of update, once: what the shapes of an instruction's next state leave unchanged. -/

namespace Sys2Proof.Machine

variable {s t : State} {rs rs' : List RegIdx} {ps ps' : List Part}

/-- A frame with more allowed to change. -/
theorem frame_mono (h : FrameBut rs ps s t) (hr : ∀ r ∈ rs, r ∈ rs') (hp : ∀ p ∈ ps, p ∈ ps') :
    FrameBut rs' ps' s t :=
  ⟨fun r h' => h.1 r fun e => h' (hr r e), fun p h' => h.2.1 p fun e => h' (hp p e), h.2.2⟩

theorem frame_refl : FrameBut rs ps s s :=
  ⟨fun _ _ => rfl, fun p _ => by cases p <;> simp [Part.kept], rfl, rfl⟩

/-- A pc update changes nothing a frame speaks of. -/
theorem frame_setPc (a : Word) : FrameBut rs ps s (s.setPc a) :=
  ⟨fun _ _ => rfl, fun p _ => by cases p <;> simp [Part.kept], rfl, rfl⟩

theorem frame_skipIf (c : Bool) : FrameBut rs ps s (skipIf c s) := frame_setPc _

/-- One register written, then the advance. -/
theorem frame_setReg (x : RegIdx) (b : Byte) : FrameBut [x] [] s (advance (s.setReg x b)) := by
  refine ⟨fun r hr => ?_, fun p hp => ?_, rfl, rfl⟩
  · simp only [List.mem_singleton] at hr
    simp [reg_setReg, hr]
  · cases p <;> simp [Part.kept]

theorem frame_setI (a : Word) : FrameBut [] [.index] s (advance (s.setI a)) := by
  refine ⟨fun r hr => rfl, fun p hp => ?_, rfl, rfl⟩
  cases p <;> simp_all [Part.kept]

theorem frame_setCallStack (n : Fin 17) (e : Vector Word 16) (a : Word) :
    FrameBut [] [.callStack] s ((s.setCallStack n e).setPc a) := by
  refine ⟨fun r hr => rfl, fun p hp => ?_, rfl, rfl⟩
  cases p <;> simp_all [Part.kept]

/-- Taking a fault changes FAULT alone, pc included. -/
theorem frame_setFault (f : Option FaultRecord) : FrameBut [] [.faultLatch] s (s.setFault f) := by
  refine ⟨fun r _ => rfl, fun p hp => ?_, rfl, rfl⟩
  cases p <;> simp_all [Part.kept]

end Sys2Proof.Machine
end

