-- ==== Sys2Proof/Laws/Framebuffer.lean ====
section
/-! SUPPORT. What drawing does to one cell: the sprite mask bit by bit, one row, and the whole sprite by induction on its
rows, with the collision and change bits. -/

namespace Sys2Proof.Machine

/-- Whether a sprite byte drawn from column `x0` touches column `x`: sprite column `x - x0` is bit `7 - (x - x0)`. -/
def spriteBit (x0 : Nat) (b : Byte) (x : Nat) : Bool :=
  decide (x0 ≤ x) && decide (x < x0 + 8) && b.getLsbD (7 - (x - x0))

theorem spriteMask_getLsbD (x0 : Nat) (b : Byte) (x : Fin 64) :
    (spriteMask x0 b).getLsbD x.val = spriteBit x0 b x.val := by
  have hx := x.isLt
  simp only [spriteMask, spriteBit, BitVec.getLsbD_shiftLeft, BitVec.getLsbD_setWidth, BitVec.getLsbD_reverse,
    BitVec.getMsbD_eq_getLsbD]
  by_cases h1 : x0 ≤ x.val
  · by_cases h2 : x.val < x0 + 8
    · simp [h1, h2, hx, show ¬ x.val < x0 by omega, show x.val - x0 < 64 by omega, show x.val - x0 < 8 by omega]
    · simp [h2, show ¬ x.val - x0 < 8 by omega]
  · simp [h1, show x.val < x0 by omega]

/-- A row that is not zero has a set cell. -/
theorem row_ne_zero (r : BitVec 64) : (r != 0#64) = true ↔ ∃ x : Fin 64, r.getLsbD x.val = true := by
  simp only [bne_iff_ne, ne_eq]
  constructor
  · intro h
    by_contra hn
    apply h
    refine BitVec.eq_of_getLsbD_eq fun i hi => ?_
    have : ¬ r.getLsbD i = true := fun he => hn ⟨⟨i, hi⟩, he⟩
    simpa using this
  · rintro ⟨x, hx⟩ rfl
    simp at hx

/-- Whether the sprite's rows drawn from `(x0, y0)` touch a cell. -/
def touches (x0 y0 : Nat) (rows : List Byte) (x : Fin 64) (y : Fin 32) : Bool :=
  decide (y0 ≤ y.val) && decide (y.val < y0 + rows.length) && spriteBit x0 (rows.getD (y.val - y0) 0) x.val

theorem blitRow_cell (x0 y0 : Nat) (b : Byte) (d : Drawing) (x : Fin 64) (y : Fin 32) :
    cell (blitRow x0 y0 b d).fb x y = (cell d.fb x y ^^ (decide (y0 = y.val) && spriteBit x0 b x.val)) := by
  unfold blitRow
  split
  · rename_i h
    simp only [cell, Vector.get_eq_getElem, Vector.getElem_set]
    by_cases hy : y0 = y.val
    · subst hy
      have := spriteMask_getLsbD x0 b x
      simpa using this
    · simp [hy]
  · have : y0 ≠ y.val := by have := y.isLt; omega
    simp [this]

theorem blitRow_changed (x0 y0 : Nat) (b : Byte) (d : Drawing) :
    (blitRow x0 y0 b d).changed = true ↔
      d.changed = true ∨ ∃ (x : Fin 64) (y : Fin 32), y0 = y.val ∧ spriteBit x0 b x.val = true := by
  unfold blitRow
  split
  · rename_i h
    simp only [Bool.or_eq_true, row_ne_zero, spriteMask_getLsbD]
    constructor
    · rintro (h1 | ⟨x, hx⟩)
      · exact .inl h1
      · exact .inr ⟨x, ⟨y0, h⟩, rfl, hx⟩
    · rintro (h1 | ⟨x, y, _, hx⟩)
      · exact .inl h1
      · exact .inr ⟨x, hx⟩
  · rename_i h
    constructor
    · exact .inl
    · rintro (h1 | ⟨x, y, hy, _⟩)
      · exact h1
      · have := y.isLt; omega

theorem blitRow_collision (x0 y0 : Nat) (b : Byte) (d : Drawing) :
    (blitRow x0 y0 b d).collision = true ↔
      d.collision = true ∨ ∃ (x : Fin 64) (y : Fin 32), y0 = y.val ∧ spriteBit x0 b x.val = true ∧
        cell d.fb x y = true := by
  unfold blitRow
  split
  · rename_i h
    simp only [Bool.or_eq_true, row_ne_zero, BitVec.getLsbD_and, Bool.and_eq_true, spriteMask_getLsbD]
    constructor
    · rintro (h1 | ⟨x, hx⟩)
      · exact .inl h1
      · exact .inr ⟨x, ⟨y0, h⟩, rfl, hx.2, hx.1⟩
    · rintro (h1 | ⟨x, y, rfl, hx, hc⟩)
      · exact .inl h1
      · exact .inr ⟨x, hc, hx⟩
  · rename_i h
    constructor
    · exact .inl
    · rintro (h1 | ⟨x, y, hy, _⟩)
      · exact h1
      · have := y.isLt; omega

theorem touches_nil (x0 y0 : Nat) (x : Fin 64) (y : Fin 32) : touches x0 y0 [] x y = false := by
  have : ¬ (y0 ≤ y.val ∧ y.val < y0) := by omega
  simp only [touches, List.length_nil, Nat.add_zero]
  rw [← Bool.decide_and, decide_eq_false this, Bool.false_and]

theorem touches_cons (x0 y0 : Nat) (b : Byte) (bs : List Byte) (x : Fin 64) (y : Fin 32) :
    touches x0 y0 (b :: bs) x y =
      ((decide (y0 = y.val) && spriteBit x0 b x.val) || touches x0 (y0 + 1) bs x y) := by
  unfold touches
  by_cases h : y0 = y.val
  · have : ¬ y0 + 1 ≤ y.val := by omega
    simp [h]
  · by_cases h2 : y0 + 1 ≤ y.val
    · simp [h, h2, show y0 ≤ y.val by omega, show y.val - y0 = (y.val - (y0 + 1)) + 1 by omega,
        show y.val < y0 + (bs.length + 1) ↔ y.val < y0 + 1 + bs.length by omega]
    · simp [h, h2, show ¬ y0 ≤ y.val by omega]

/-- A cell of row `y0` is not touched by the rows below. -/
theorem touches_below (x0 y0 : Nat) (bs : List Byte) (x : Fin 64) (y : Fin 32) (h : y0 = y.val) :
    touches x0 (y0 + 1) bs x y = false := by
  have : ¬ y0 + 1 ≤ y.val := by omega
  simp [touches, this]

/-- Drawing flips exactly the touched cells, sets the change bit exactly when a cell is touched, and the collision bit
exactly when a touched cell was set. -/
theorem blitRows_spec (x0 : Nat) (bs : List Byte) (y0 : Nat) (d : Drawing) :
    (∀ x y, cell (blitRows x0 y0 bs d).fb x y = (cell d.fb x y ^^ touches x0 y0 bs x y)) ∧
    ((blitRows x0 y0 bs d).changed = true ↔ d.changed = true ∨ ∃ x y, touches x0 y0 bs x y = true) ∧
    ((blitRows x0 y0 bs d).collision = true ↔
      d.collision = true ∨ ∃ x y, touches x0 y0 bs x y = true ∧ cell d.fb x y = true) := by
  induction bs generalizing y0 d with
  | nil => simp [blitRows, touches_nil]
  | cons b bs ih =>
    obtain ⟨h1, h2, h3⟩ := ih (y0 + 1) (blitRow x0 y0 b d)
    refine ⟨fun x y => ?_, ?_, ?_⟩
    · rw [blitRows, h1, blitRow_cell, touches_cons]
      by_cases h : y0 = y.val
      · rw [touches_below x0 y0 bs x y h]; simp
      · simp [h]
    · rw [blitRows, h2, blitRow_changed]
      simp only [touches_cons, Bool.or_eq_true, Bool.and_eq_true, decide_eq_true_eq, exists_or, or_assoc]
    · rw [blitRows, h3, blitRow_collision]
      simp only [touches_cons, Bool.or_eq_true, Bool.and_eq_true, decide_eq_true_eq, or_assoc]
      refine or_congr_right ?_
      constructor
      · rintro (⟨x, y, hy, hs, hc⟩ | ⟨x, y, ht, hc⟩)
        · exact ⟨x, y, .inl ⟨hy, hs⟩, hc⟩
        · refine ⟨x, y, .inr ht, ?_⟩
          have hne : ¬ y0 = y.val := fun h => by rw [touches_below x0 y0 bs x y h] at ht; simp at ht
          simpa [blitRow_cell, hne] using hc
      · rintro ⟨x, y, ⟨hy, hs⟩ | ht, hc⟩
        · exact .inl ⟨x, y, hy, hs, hc⟩
        · refine .inr ⟨x, y, ht, ?_⟩
          have hne : ¬ y0 = y.val := fun h => by rw [touches_below x0 y0 bs x y h] at ht; simp at ht
          simpa [blitRow_cell, hne] using hc

end Sys2Proof.Machine
end

