-- ==== Sys2Proof/Laws/Operations.lean ====
section
/-! SUPPORT. What the other agents' operations leave, field by field, so that no proof unfolds them (a `rfl` or `decide`
through `hostReset` would run over the glyph table); the key latch after its operations; the reset memory's bytes. -/

namespace Sys2Proof.Machine

variable (s : State)

/-! ### initialise -/

@[simp] theorem initialise_v : (initialise s).v = Vector.replicate 16 0x00#8 := rfl
@[simp] theorem initialise_I : (initialise s).I = 0x0000#16 := rfl
@[simp] theorem initialise_pc : (initialise s).pc = 0x0200#16 := rfl
@[simp] theorem initialise_sp : (initialise s).sp = 0 := rfl
@[simp] theorem initialise_stack : (initialise s).stack = Vector.replicate 16 0x0000#16 := rfl
@[simp] theorem initialise_dt : (initialise s).dt = 0x00#8 := rfl
@[simp] theorem initialise_st : (initialise s).st = 0x00#8 := rfl
@[simp] theorem initialise_fault : (initialise s).fault = none := rfl
@[simp] theorem initialise_fb : (initialise s).fb = blankFramebuffer := rfl
@[simp] theorem initialise_dirty : (initialise s).dirty = false := rfl
@[simp] theorem initialise_mem : (initialise s).mem = s.mem := rfl
@[simp] theorem initialise_keys : (initialise s).keys = s.keys := rfl
@[simp] theorem initialise_params : (initialise s).params = s.params := rfl
@[simp] theorem initialise_draws : (initialise s).draws = s.draws := rfl
@[simp] theorem initialise_schedule : (initialise s).schedule = s.schedule := rfl

/-! ### Reset -/

@[simp] theorem hostReset_mem : (hostReset s).mem = Memory.pokeBytes s.mem Config.glyphBase s.params.glyphs.toList := by
  simp only [hostReset, setMem_mem]
@[simp] theorem hostReset_v : (hostReset s).v = Vector.replicate 16 0x00#8 := by simp only [hostReset, setMem_v, initialise_v]
@[simp] theorem hostReset_I : (hostReset s).I = 0x0000#16 := by simp only [hostReset, setMem_I, initialise_I]
@[simp] theorem hostReset_pc : (hostReset s).pc = 0x0200#16 := by simp only [hostReset, setMem_pc, initialise_pc]
@[simp] theorem hostReset_sp : (hostReset s).sp = 0 := by simp only [hostReset, setMem_sp, initialise_sp]
@[simp] theorem hostReset_stack : (hostReset s).stack = Vector.replicate 16 0x0000#16 := by simp only [hostReset, setMem_stack, initialise_stack]
@[simp] theorem hostReset_dt : (hostReset s).dt = 0x00#8 := by simp only [hostReset, setMem_dt, initialise_dt]
@[simp] theorem hostReset_st : (hostReset s).st = 0x00#8 := by simp only [hostReset, setMem_st, initialise_st]
@[simp] theorem hostReset_fault : (hostReset s).fault = none := by simp only [hostReset, setMem_fault, initialise_fault]
@[simp] theorem hostReset_fb : (hostReset s).fb = blankFramebuffer := by simp only [hostReset, setMem_fb, initialise_fb]
@[simp] theorem hostReset_dirty : (hostReset s).dirty = false := by simp only [hostReset, setMem_dirty, initialise_dirty]
@[simp] theorem hostReset_keys : (hostReset s).keys = s.keys := by simp only [hostReset, setMem_keys, initialise_keys]
@[simp] theorem hostReset_params : (hostReset s).params = s.params := by simp only [hostReset, setMem_params, initialise_params]
@[simp] theorem hostReset_draws : (hostReset s).draws = s.draws := by simp only [hostReset, setMem_draws, initialise_draws]
@[simp] theorem hostReset_schedule : (hostReset s).schedule = s.schedule := by simp only [hostReset, setMem_schedule, initialise_schedule]

/-! ### PowerOn -/

variable (q : Params) (image : List Byte)

@[simp] theorem poweredOn_mem : (poweredOn q image s).mem =
    Memory.pokeBytes (Memory.pokeBytes [] Config.glyphBase q.glyphs.toList) Config.progBase image := rfl
@[simp] theorem poweredOn_keys : (poweredOn q image s).keys = Vector.replicate 16 false := rfl
@[simp] theorem poweredOn_params : (poweredOn q image s).params = q := rfl
@[simp] theorem poweredOn_v : (poweredOn q image s).v = Vector.replicate 16 0x00#8 := rfl
@[simp] theorem poweredOn_I : (poweredOn q image s).I = 0x0000#16 := rfl
@[simp] theorem poweredOn_pc : (poweredOn q image s).pc = 0x0200#16 := rfl
@[simp] theorem poweredOn_sp : (poweredOn q image s).sp = 0 := rfl
@[simp] theorem poweredOn_stack : (poweredOn q image s).stack = Vector.replicate 16 0x0000#16 := rfl
@[simp] theorem poweredOn_dt : (poweredOn q image s).dt = 0x00#8 := rfl
@[simp] theorem poweredOn_st : (poweredOn q image s).st = 0x00#8 := rfl
@[simp] theorem poweredOn_fault : (poweredOn q image s).fault = none := rfl
@[simp] theorem poweredOn_fb : (poweredOn q image s).fb = blankFramebuffer := rfl
@[simp] theorem poweredOn_dirty : (poweredOn q image s).dirty = false := rfl
@[simp] theorem poweredOn_draws : (poweredOn q image s).draws = s.draws := rfl
@[simp] theorem poweredOn_schedule : (poweredOn q image s).schedule = s.schedule := rfl

/-- The state after reset is what PowerOn with an empty image constructs. -/
theorem reset_eq_poweredOn : State.reset = poweredOn State.reset.params [] State.reset := by decide

/-! ### Writing the glyph table -/

/-- The parameter's 80 bytes lie inside memory, so writing them keeps the canonical form. -/
theorem wf_pokeBytes_glyphs (g : Vector Byte 80) {m : Memory} (hm : Memory.wf m = true) :
    Memory.wf (Memory.pokeBytes m Config.glyphBase g.toList) = true :=
  wf_pokeBytes hm _ (by simp [memSize_eq, Config.glyphBase])

/-- After it each address of the table reads as the parameter's byte. -/
theorem peek_pokeBytes_glyphs (g : Vector Byte 80) {m : Memory} (hm : Memory.wf m = true) (k : Fin 80) :
    Memory.peek (Memory.pokeBytes m Config.glyphBase g.toList) (Config.glyphBase + k.val) = g.get k := by
  rw [peek_pokeBytes_inside hm _ (by simp [memSize_eq, Config.glyphBase]) (by simp)]
  simp [Vector.get_eq_getElem]

/-! ### Tick -/

@[simp] theorem tick_fst : (tick s).1 = tickState s := rfl

@[simp] theorem tick_snd : (tick s).2 = soundActive (tickState s) := rfl

theorem tickState_running {s : State} (h : s.fault = none) :
    tickState s = (s.setDt (countDown s.dt)).setSt (countDown s.st) := by rw [tickState, h]

theorem tickState_halted {s : State} {f : FaultRecord} (h : s.fault = some f) : tickState s = s := by
  rw [tickState, h]

@[simp] theorem countDown_toNat (b : Byte) : (countDown b).toNat = b.toNat - 1 := by
  unfold countDown
  split
  · rename_i h
    rw [h]
    rfl
  · rename_i h
    have : b.toNat ≠ 0 := fun e => h (BitVec.eq_of_toNat_eq (by simpa using e))
    have := b.isLt
    simp only [BitVec.toNat_sub, BitVec.toNat_ofNat]
    omega

theorem soundActive_iff : soundActive s = true ↔ s.st ≠ 0x00#8 := by simp [soundActive]

/-! ### The key latch -/

theorem key_keySet (k q : KeyIdx) : (keySet k s).key q = if q = k then true else s.key q := by
  simp only [State.key, keySet, setKeys_keys, Vector.get_eq_getElem, Vector.getElem_set]
  by_cases h : q = k
  · simp [h]
  · have : ¬ k.toNat = q.toNat := fun e => h (BitVec.eq_of_toNat_eq e.symm)
    simp [h, this]

@[simp] theorem key_keyClearAll (q : KeyIdx) : (keyClearAll s).key q = false := by
  simp [State.key, keyClearAll]

/-! ### What an unlisted address reads as -/

@[simp] theorem glyphTable_length : glyphTable.length = 80 := rfl

theorem initialByte_glyph (k : Nat) : initialByte (0x50 + k) = glyphTable.getD k 0x00#8 := by
  simp [initialByte, Config.glyphBase]

theorem initialByte_zero {a : Nat} (h : a < 0x50 ∨ 0xA0 ≤ a) : initialByte a = 0x00#8 := by
  unfold initialByte Config.glyphBase
  rcases h with h | h
  · rw [if_pos h]
  · rw [if_neg (by omega), List.getD_eq_getElem?_getD, List.getElem?_eq_none (by rw [glyphTable_length]; omega)]
    rfl

end Sys2Proof.Machine
end

