-- ==== Sys2Proof/Laws/PerInstr.lean ====
section
/-! SUPPORT. What is said of each instruction as syntax, one lemma per constructor: the encoder's word selects the
instruction's own row of the opcode map (30_encoding.md R73: `w & mask = match`). -/

namespace Sys2Proof.Laws.EncodedByTable

/-- The encoded word selects the instruction's row. -/
def Statement (i : Instr) : Prop := encode i &&& (opcodeRow i).1 = (opcodeRow i).2

/-- Masking an `NNN` word with 0xF000 leaves its family nibble. -/
theorem mask_nnn (o : Nibble) (nnn : Addr12) : (o ++ nnn : Word) &&& 0xF000#16 = (o ++ 0x000#12 : Word) := by
  refine BitVec.eq_of_getLsbD_eq fun i hi => ?_
  rw [BitVec.getLsbD_and, bit_nnn, bit_nnn]
  have hm : (0xF000#16).getLsbD i = decide (12 ≤ i) := by interval_cases i <;> rfl
  rw [hm]
  by_cases h : i < 12
  · simp [h, show ¬ 12 ≤ i by omega]
  · simp [h, show 12 ≤ i by omega]

/-- Masking an `XNN` word with 0xF000 leaves its family nibble. -/
theorem mask_xnn (o : Nibble) (x : RegIdx) (nn : Byte) :
    (o ++ x ++ nn : Word) &&& 0xF000#16 = (o ++ 0x0#4 ++ 0x00#8 : Word) := by
  refine BitVec.eq_of_getLsbD_eq fun i hi => ?_
  rw [BitVec.getLsbD_and, bit_xnn, bit_xnn]
  have hm : (0xF000#16).getLsbD i = decide (12 ≤ i) := by interval_cases i <;> rfl
  rw [hm]
  by_cases h : i < 12
  · by_cases h8 : i < 8 <;> simp [h, h8, show ¬ 12 ≤ i by omega]
  · simp [h, show ¬ i < 8 by omega, show 12 ≤ i by omega]

/-- Masking an `X` word with 0xF0FF leaves its family nibble and its low byte. -/
theorem mask_x (o : Nibble) (x : RegIdx) (nn : Byte) :
    (o ++ x ++ nn : Word) &&& 0xF0FF#16 = (o ++ 0x0#4 ++ nn : Word) := by
  refine BitVec.eq_of_getLsbD_eq fun i hi => ?_
  rw [BitVec.getLsbD_and, bit_xnn, bit_xnn]
  have hm : (0xF0FF#16).getLsbD i = (decide (i < 8) || decide (12 ≤ i)) := by interval_cases i <;> rfl
  rw [hm]
  by_cases h : i < 8
  · simp [h]
  · by_cases h12 : i < 12
    · simp [h, h12, show ¬ 12 ≤ i by omega]
    · simp [h, h12, show 12 ≤ i by omega]

/-- Masking an `XYN` word with 0xF00F leaves its family nibble and its sub-opcode. -/
theorem mask_xyn (o : Nibble) (x y : RegIdx) (n : Nibble) :
    (o ++ x ++ y ++ n : Word) &&& 0xF00F#16 = (o ++ 0x0#4 ++ 0x0#4 ++ n : Word) := by
  refine BitVec.eq_of_getLsbD_eq fun i hi => ?_
  rw [BitVec.getLsbD_and, bit_xyn, bit_xyn]
  have hm : (0xF00F#16).getLsbD i = (decide (i < 4) || decide (12 ≤ i)) := by interval_cases i <;> rfl
  rw [hm]
  by_cases h : i < 4
  · simp [h]
  · by_cases h8 : i < 8
    · simp [h, h8, show ¬ 12 ≤ i by omega]
    · by_cases h12 : i < 12
      · simp [h, h8, h12, show ¬ 12 ≤ i by omega]
      · simp [h, h8, h12, show 12 ≤ i by omega]

/-- Masking a draw's word with 0xF000 leaves its family nibble. -/
theorem mask_drw (o : Nibble) (x y : RegIdx) (n : Nibble) :
    (o ++ x ++ y ++ n : Word) &&& 0xF000#16 = (o ++ 0x0#4 ++ 0x0#4 ++ 0x0#4 : Word) := by
  refine BitVec.eq_of_getLsbD_eq fun i hi => ?_
  rw [BitVec.getLsbD_and, bit_xyn, bit_xyn]
  have hm : (0xF000#16).getLsbD i = decide (12 ≤ i) := by interval_cases i <;> rfl
  rw [hm]
  by_cases h12 : i < 12
  · by_cases h : i < 4
    · simp [h, show ¬ 12 ≤ i by omega]
    · by_cases h8 : i < 8 <;> simp [h, h8, h12, show ¬ 12 ≤ i by omega]
  · simp [h12, show ¬ i < 4 by omega, show ¬ i < 8 by omega, show 12 ≤ i by omega]

theorem cls : Statement .cls := rfl
theorem ret : Statement .ret := rfl
theorem sys (nnn : Addr12) : Statement (.sys nnn) := mask_nnn _ _
theorem jp (nnn : Addr12) : Statement (.jp nnn) := mask_nnn _ _
theorem call (nnn : Addr12) : Statement (.call nnn) := mask_nnn _ _
theorem seImm (x : RegIdx) (nn : Byte) : Statement (.seImm x nn) := mask_xnn _ _ _
theorem sneImm (x : RegIdx) (nn : Byte) : Statement (.sneImm x nn) := mask_xnn _ _ _
theorem seReg (x y : RegIdx) : Statement (.seReg x y) := mask_xyn _ _ _ _
theorem ldImm (x : RegIdx) (nn : Byte) : Statement (.ldImm x nn) := mask_xnn _ _ _
theorem addImm (x : RegIdx) (nn : Byte) : Statement (.addImm x nn) := mask_xnn _ _ _
theorem ldReg (x y : RegIdx) : Statement (.ldReg x y) := mask_xyn _ _ _ _
theorem orReg (x y : RegIdx) : Statement (.orReg x y) := mask_xyn _ _ _ _
theorem andReg (x y : RegIdx) : Statement (.andReg x y) := mask_xyn _ _ _ _
theorem xorReg (x y : RegIdx) : Statement (.xorReg x y) := mask_xyn _ _ _ _
theorem addReg (x y : RegIdx) : Statement (.addReg x y) := mask_xyn _ _ _ _
theorem subReg (x y : RegIdx) : Statement (.subReg x y) := mask_xyn _ _ _ _
theorem shr (x y : RegIdx) : Statement (.shr x y) := mask_xyn _ _ _ _
theorem subnReg (x y : RegIdx) : Statement (.subnReg x y) := mask_xyn _ _ _ _
theorem shl (x y : RegIdx) : Statement (.shl x y) := mask_xyn _ _ _ _
theorem sneReg (x y : RegIdx) : Statement (.sneReg x y) := mask_xyn _ _ _ _
theorem ldI (nnn : Addr12) : Statement (.ldI nnn) := mask_nnn _ _
theorem jpV0 (nnn : Addr12) : Statement (.jpV0 nnn) := mask_nnn _ _
theorem rnd (x : RegIdx) (nn : Byte) : Statement (.rnd x nn) := mask_xnn _ _ _
theorem drw (x y : RegIdx) (n : Nibble) : Statement (.drw x y n) := mask_drw _ _ _ _
theorem skp (x : RegIdx) : Statement (.skp x) := mask_x _ _ _
theorem sknp (x : RegIdx) : Statement (.sknp x) := mask_x _ _ _
theorem ldVxDt (x : RegIdx) : Statement (.ldVxDt x) := mask_x _ _ _
theorem ldVxK (x : RegIdx) : Statement (.ldVxK x) := mask_x _ _ _
theorem ldDtVx (x : RegIdx) : Statement (.ldDtVx x) := mask_x _ _ _
theorem ldStVx (x : RegIdx) : Statement (.ldStVx x) := mask_x _ _ _
theorem addI (x : RegIdx) : Statement (.addI x) := mask_x _ _ _
theorem ldF (x : RegIdx) : Statement (.ldF x) := mask_x _ _ _
theorem ldB (x : RegIdx) : Statement (.ldB x) := mask_x _ _ _
theorem storeRegs (x : RegIdx) : Statement (.storeRegs x) := mask_x _ _ _
theorem loadRegs (x : RegIdx) : Statement (.loadRegs x) := mask_x _ _ _

end Sys2Proof.Laws.EncodedByTable
end

