-- ==== Sys2Proof/Laws/Step.lean ====
section
/-! SUPPORT. Everything one step can be: the executor's when nothing is scheduled, else the scheduled operation; and that
the executor's always answers a next state. -/

namespace Sys2Proof.Machine

/-- A step performs the executor's operation with an empty schedule, else the oldest operation of it. -/
theorem step_cases (s : State) :
    (s.schedule = [] ∧ step s = perform .step s) ∨
      ∃ op ops, s.schedule = op :: ops ∧ step s = perform op (s.setSchedule ops) := by
  cases h : s.schedule with
  | nil => exact .inl ⟨rfl, by simp [step, h]⟩
  | cons op ops => exact .inr ⟨op, ops, rfl, by simp [step, h]⟩

/-- The operation `Step` always answers a next state. -/
theorem executorStep_answers (s : State) : ∃ t, executorStep s = .next t := by
  rcases executorStep_cases s with ⟨_, h⟩ | ⟨_, _, h⟩ | ⟨_, _, h⟩
  · exact ⟨_, h⟩
  · exact ⟨_, h⟩
  · rw [h]
    unfold executeWord
    split
    · exact ⟨_, rfl⟩
    · exact exec_answers _ _

end Sys2Proof.Machine
end

