-- ==== Sys2Proof/Tests/Slice0.lean ====
section
/-! SUPPORT. The model's own tests. Expected results are the spec's: 95_test_vectors.md (ids S.., T..-.. in the
docstrings), the opcode table's patterns, and the reset values of R186. Then, for every obligation with hypotheses, states
and operands that meet them (`test_witness_...`), at the boundary values of its clauses. -/

open Sys2Proof Sys2Proof.Machine

namespace Sys2Proof.Tests

/-! ## Well-formedness -/

/-- The three low-12-bit values that are no legacy call are refused (R74). -/
theorem test_wf_refuses_sys_000 : (Instr.sys 0x000#12).wellFormed = false := by decide
theorem test_wf_refuses_sys_0E0 : (Instr.sys 0x0E0#12).wellFormed = false := by decide
theorem test_wf_refuses_sys_0EE : (Instr.sys 0x0EE#12).wellFormed = false := by decide
theorem test_wf_accepts_sys_0E1 : (Instr.sys 0x0E1#12).wellFormed = true := by decide

/-! ## Decoding: one word of every row, its bits written out from the row's pattern (R73) -/

theorem test_decode_cls : decodeTableWord 16 0b0000000011100000 = some .cls := by decide
theorem test_decode_ret : decodeTableWord 16 0b0000000011101110 = some .ret := by decide
theorem test_decode_sys : decodeTableWord 16 0b0000001000110100 = some (.sys 0x234#12) := by decide
theorem test_decode_jp : decodeTableWord 16 0b0001101010111100 = some (.jp 0xABC#12) := by decide
theorem test_decode_call : decodeTableWord 16 0b0010101010111100 = some (.call 0xABC#12) := by decide
theorem test_decode_seImm : decodeTableWord 16 0b0011101001000010 = some (.seImm 0xA#4 0x42#8) := by decide
theorem test_decode_sneImm : decodeTableWord 16 0b0100101001000010 = some (.sneImm 0xA#4 0x42#8) := by decide
theorem test_decode_seReg : decodeTableWord 16 0b0101000100100000 = some (.seReg 0x1#4 0x2#4) := by decide
theorem test_decode_ldImm : decodeTableWord 16 0b0110101000001111 = some (.ldImm 0xA#4 0x0F#8) := by decide
theorem test_decode_addImm : decodeTableWord 16 0b0111101000000001 = some (.addImm 0xA#4 0x01#8) := by decide
theorem test_decode_ldReg : decodeTableWord 16 0b1000101010110000 = some (.ldReg 0xA#4 0xB#4) := by decide
theorem test_decode_orReg : decodeTableWord 16 0b1000101010110001 = some (.orReg 0xA#4 0xB#4) := by decide
theorem test_decode_andReg : decodeTableWord 16 0b1000101010110010 = some (.andReg 0xA#4 0xB#4) := by decide
theorem test_decode_xorReg : decodeTableWord 16 0b1000101010110011 = some (.xorReg 0xA#4 0xB#4) := by decide
theorem test_decode_addReg : decodeTableWord 16 0b1000101010110100 = some (.addReg 0xA#4 0xB#4) := by decide
theorem test_decode_subReg : decodeTableWord 16 0b1000101010110101 = some (.subReg 0xA#4 0xB#4) := by decide
theorem test_decode_shr : decodeTableWord 16 0b1000101010110110 = some (.shr 0xA#4 0xB#4) := by decide
theorem test_decode_subnReg : decodeTableWord 16 0b1000101010110111 = some (.subnReg 0xA#4 0xB#4) := by decide
theorem test_decode_shl : decodeTableWord 16 0b1000101010111110 = some (.shl 0xA#4 0xB#4) := by decide
theorem test_decode_sneReg : decodeTableWord 16 0b1001000100100000 = some (.sneReg 0x1#4 0x2#4) := by decide
theorem test_decode_ldI : decodeTableWord 16 0b1010000100100011 = some (.ldI 0x123#12) := by decide
theorem test_decode_jpV0 : decodeTableWord 16 0b1011001100000000 = some (.jpV0 0x300#12) := by decide
theorem test_decode_rnd : decodeTableWord 16 0b1100001100001111 = some (.rnd 0x3#4 0x0F#8) := by decide
theorem test_decode_drw : decodeTableWord 16 0b1101000100100101 = some (.drw 0x1#4 0x2#4 0x5#4) := by decide
theorem test_decode_skp : decodeTableWord 16 0b1110001110011110 = some (.skp 0x3#4) := by decide
theorem test_decode_sknp : decodeTableWord 16 0b1110001110100001 = some (.sknp 0x3#4) := by decide
theorem test_decode_ldVxDt : decodeTableWord 16 0b1111001100000111 = some (.ldVxDt 0x3#4) := by decide
theorem test_decode_ldVxK : decodeTableWord 16 0b1111001100001010 = some (.ldVxK 0x3#4) := by decide
theorem test_decode_ldDtVx : decodeTableWord 16 0b1111001100010101 = some (.ldDtVx 0x3#4) := by decide
theorem test_decode_ldStVx : decodeTableWord 16 0b1111001100011000 = some (.ldStVx 0x3#4) := by decide
theorem test_decode_addI : decodeTableWord 16 0b1111001100011110 = some (.addI 0x3#4) := by decide
theorem test_decode_ldF : decodeTableWord 16 0b1111001100101001 = some (.ldF 0x3#4) := by decide
theorem test_decode_ldB : decodeTableWord 16 0b1111001100110011 = some (.ldB 0x3#4) := by decide
theorem test_decode_storeRegs : decodeTableWord 16 0b1111001101010101 = some (.storeRegs 0x3#4) := by decide
theorem test_decode_loadRegs : decodeTableWord 16 0b1111001101100101 = some (.loadRegs 0x3#4) := by decide

/-- Words of no row, from the vectors: T46-1, T40-17, T40-20, T41-36, T41-37, T44-7, T44-18, T46-9. -/
theorem test_decode_rejects : [0x0000#16, 0x5121#16, 0x9121#16, 0x8018#16, 0x801F#16, 0xE39F#16, 0xF30B#16, 0xF330#16].all
    (fun w => decodeWord w == .error (.unknownOpcode w)) = true := by decide

/-- T46-5, T46-6: the neighbours of CLS and RET are legacy words. -/
theorem test_decode_legacy_neighbours : decodeWord 0x00E1#16 = .ok (.sys 0x0E1#12) ∧
    decodeWord 0x00ED#16 = .ok (.sys 0x0ED#12) := by decide

/-- R52: the byte at the lower address is the high one. -/
theorem test_decode_big_endian : decodeBytes [0x6A#8, 0x0F#8, 0x77#8] = .ok (.ldImm 0xA#4 0x0F#8, [0x77#8]) := by decide

/-- A single byte is no instruction. -/
theorem test_decode_truncated : decodeBytes [0x6A#8] = .error .truncated := by decide

/-! ## Small states and one step -/

/-- The start state of the vectors: after reset, with the word at 0x200 and the given registers. -/
def start (w : Nat) (regs : List (RegIdx × Byte)) : State :=
  regs.foldl (fun s rb => s.setReg rb.1 rb.2) (State.reset.withFetchWord 16 w)

/-- The start state with the two quirk switches turned on. -/
def quirky (w : Nat) (regs : List (RegIdx × Byte)) : State :=
  { start w regs with params := { shiftUsesVy := true, indexIncrement := true, glyphs := defaultGlyphs } }

/-- A state with bytes stored from an address. -/
def stored (s : State) (a : Nat) (bs : List Byte) : State := s.setMem (Memory.pokeBytes s.mem a bs)

/-- A state with keys held. -/
def held (s : State) (ks : List KeyIdx) : State := ks.foldl (fun s k => keySet k s) s

/-- A property of the state one step leaves. -/
def after (s : State) (p : State → Bool) : Bool :=
  match step s with
  | .next t => p t
  | .fault _ => false
  | .refused _ => false

/-- One step takes the fault and changes nothing else (R160). -/
def faults (s : State) (f : FaultRecord) : Bool := after s fun t => decide (t = s.setFault (some f))

/-! ## Control flow -/

/-- T40-1. -/
theorem test_jp : after (start 0x1ABC [])
    (fun t => t.pc == 0x0ABC#16) = true := by decide

/-- T40-3. -/
theorem test_jp_odd : after (start 0x1FFF [])
    (fun t => t.pc == 0x0FFF#16) = true := by decide

/-- T40-4. -/
theorem test_call : after (start 0x2ABC [])
    (fun t => t.pc == 0x0ABC#16 && t.entry 0 == 0x0202#16 && t.sp == 1) = true := by decide

/-- T40-6. -/
theorem test_call_overflow : faults ({ start 0x2ABC [] with sp := 16 }) .callStackOverflow = true := by decide

/-- T40-7 (and R32: the popped entry stays). -/
theorem test_ret : after ({ start 0x00EE [] with sp := 1, stack := State.reset.stack.set 0 0x0456#16 })
    (fun t => t.pc == 0x0456#16 && t.sp == 0 && t.entry 0 == 0x0456#16) = true := by decide

/-- T40-8. -/
theorem test_ret_underflow : faults (start 0x00EE []) .callStackUnderflow = true := by decide

/-- T40-10. -/
theorem test_seImm_skip : after (start 0x3A42 [(0xA#4, 0x42#8)])
    (fun t => t.pc == 0x0204#16) = true := by decide

/-- T40-11. -/
theorem test_seImm_no_skip : after (start 0x3A42 [(0xA#4, 0x41#8)])
    (fun t => t.pc == 0x0202#16) = true := by decide

/-- T40-12. -/
theorem test_sneImm_no_skip : after (start 0x4A42 [(0xA#4, 0x42#8)])
    (fun t => t.pc == 0x0202#16) = true := by decide

/-- T40-13. -/
theorem test_sneImm_skip : after (start 0x4A42 [(0xA#4, 0x41#8)])
    (fun t => t.pc == 0x0204#16) = true := by decide

/-- T40-14. -/
theorem test_seReg_skip : after (start 0x5120 [(0x1#4, 0x07#8), (0x2#4, 0x07#8)])
    (fun t => t.pc == 0x0204#16) = true := by decide

/-- T40-15. -/
theorem test_seReg_no_skip : after (start 0x5120 [(0x1#4, 0x07#8), (0x2#4, 0x08#8)])
    (fun t => t.pc == 0x0202#16) = true := by decide

/-- T40-18. -/
theorem test_sneReg_no_skip : after (start 0x9120 [(0x1#4, 0x07#8), (0x2#4, 0x07#8)])
    (fun t => t.pc == 0x0202#16) = true := by decide

/-- T40-19. -/
theorem test_sneReg_skip : after (start 0x9120 [(0x1#4, 0x07#8), (0x2#4, 0x08#8)])
    (fun t => t.pc == 0x0204#16) = true := by decide

/-! ## Registers and arithmetic -/

/-- S1, T41-1. -/
theorem test_ldImm : after (start 0x6A0F [])
    (fun t => t.reg 0xA#4 == 0x0F#8 && t.pc == 0x0202#16) = true := by decide

/-- T41-2. -/
theorem test_ldImm_vf : after (start 0x6FFF [])
    (fun t => t.reg 0xF#4 == 0xFF#8) = true := by decide

/-- T41-3. -/
theorem test_addImm_wraps : after (start 0x7A01 [(0xA#4, 0xFF#8)])
    (fun t => t.reg 0xA#4 == 0x00#8 && t.reg 0xF#4 == 0x00#8 && t.pc == 0x0202#16) = true := by decide

/-- T41-4. -/
theorem test_addImm_keeps_vf : after (start 0x7AFF [(0xA#4, 0x10#8), (0xF#4, 0x05#8)])
    (fun t => t.reg 0xA#4 == 0x0F#8 && t.reg 0xF#4 == 0x05#8) = true := by decide

/-- T41-6. -/
theorem test_ldReg : after (start 0x8AB0 [(0xA#4, 0x01#8), (0xB#4, 0x99#8)])
    (fun t => t.reg 0xA#4 == 0x99#8 && t.reg 0xB#4 == 0x99#8 && t.pc == 0x0202#16) = true := by decide

/-- T41-8. -/
theorem test_orReg : after (start 0x8AB1 [(0xA#4, 0xF0#8), (0xB#4, 0x0F#8), (0xF#4, 0x07#8)])
    (fun t => t.reg 0xA#4 == 0xFF#8 && t.reg 0xF#4 == 0x07#8 && t.pc == 0x0202#16) = true := by decide

/-- T41-9. -/
theorem test_andReg : after (start 0x8AB2 [(0xA#4, 0xF3#8), (0xB#4, 0x3F#8), (0xF#4, 0x07#8)])
    (fun t => t.reg 0xA#4 == 0x33#8 && t.reg 0xF#4 == 0x07#8 && t.pc == 0x0202#16) = true := by decide

/-- T41-10. -/
theorem test_xorReg : after (start 0x8AB3 [(0xA#4, 0xFF#8), (0xB#4, 0x0F#8), (0xF#4, 0x07#8)])
    (fun t => t.reg 0xA#4 == 0xF0#8 && t.reg 0xF#4 == 0x07#8 && t.pc == 0x0202#16) = true := by decide

/-- S2, T41-12. -/
theorem test_addReg_carry : after (start 0x8014 [(0x0#4, 0xFF#8), (0x1#4, 0x01#8)])
    (fun t => t.reg 0x0#4 == 0x00#8 && t.reg 0x1#4 == 0x01#8 && t.reg 0xF#4 == 0x01#8 && t.pc == 0x0202#16) = true := by decide

/-- T41-17. -/
theorem test_addReg_vf_source : after (start 0x81F4 [(0x1#4, 0xFF#8), (0xF#4, 0x01#8)])
    (fun t => t.reg 0x1#4 == 0x00#8 && t.reg 0xF#4 == 0x01#8) = true := by decide

/-- S3, T41-18. -/
theorem test_subReg_borrow : after (start 0x8015 [(0x0#4, 0x01#8), (0x1#4, 0x02#8)])
    (fun t => t.reg 0x0#4 == 0xFF#8 && t.reg 0xF#4 == 0x00#8 && t.pc == 0x0202#16) = true := by decide

/-- T41-22. -/
theorem test_subReg_vf_destination : after (start 0x8F15 [(0xF#4, 0x05#8), (0x1#4, 0x03#8)])
    (fun t => t.reg 0xF#4 == 0x01#8) = true := by decide

/-- S4, T41-23. -/
theorem test_subnReg_equal : after (start 0x8017 [(0x0#4, 0x05#8), (0x1#4, 0x05#8)])
    (fun t => t.reg 0x0#4 == 0x00#8 && t.reg 0xF#4 == 0x01#8 && t.pc == 0x0202#16) = true := by decide

/-- T41-24. -/
theorem test_subnReg_borrow : after (start 0x8017 [(0x0#4, 0x05#8), (0x1#4, 0x03#8)])
    (fun t => t.reg 0x0#4 == 0xFE#8 && t.reg 0xF#4 == 0x00#8) = true := by decide

/-- T41-26. -/
theorem test_shr : after (start 0x8016 [(0x0#4, 0x05#8), (0x1#4, 0xF0#8)])
    (fun t => t.reg 0x0#4 == 0x02#8 && t.reg 0xF#4 == 0x01#8 && t.pc == 0x0202#16) = true := by decide

/-- T41-27. -/
theorem test_shr_quirk : after (quirky 0x8016 [(0x0#4, 0x05#8), (0x1#4, 0xF0#8)])
    (fun t => t.reg 0x0#4 == 0x78#8 && t.reg 0x1#4 == 0xF0#8 && t.reg 0xF#4 == 0x00#8 && t.pc == 0x0202#16) = true := by decide

/-- T41-29. -/
theorem test_shl : after (start 0x801E [(0x0#4, 0x81#8), (0x1#4, 0x40#8)])
    (fun t => t.reg 0x0#4 == 0x02#8 && t.reg 0xF#4 == 0x01#8 && t.pc == 0x0202#16) = true := by decide

/-- T41-30. -/
theorem test_shl_quirk : after (quirky 0x801E [(0x0#4, 0x81#8), (0x1#4, 0x40#8)])
    (fun t => t.reg 0x0#4 == 0x80#8 && t.reg 0xF#4 == 0x00#8 && t.pc == 0x0202#16) = true := by decide

/-! ## Index, indirect jump, random -/

/-- T42-2. -/
theorem test_ldI : after (start 0xAFFF [])
    (fun t => t.I == 0x0FFF#16 && t.pc == 0x0202#16) = true := by decide

/-- T42-3. -/
theorem test_addI_past_memory : after ((start 0xF31E [(0x3#4, 0x03#8), (0xF#4, 0x09#8)]).setI 0x0FFE#16)
    (fun t => t.I == 0x1001#16 && t.reg 0xF#4 == 0x09#8 && t.pc == 0x0202#16) = true := by decide

/-- T42-4. -/
theorem test_addI_wraps : after ((start 0xF31E [(0x3#4, 0x02#8)]).setI 0xFFFF#16)
    (fun t => t.I == 0x0001#16 && t.reg 0xF#4 == 0x00#8) = true := by decide

/-- T42-8. -/
theorem test_ldF_last : after (start 0xF329 [(0x3#4, 0x0F#8)])
    (fun t => t.I == 0x009B#16 && t.pc == 0x0202#16) = true := by decide

/-- T42-9. -/
theorem test_ldF_low_nibble : after (start 0xF329 [(0x3#4, 0x1A#8)])
    (fun t => t.I == 0x0082#16) = true := by decide

/-- T42-10. -/
theorem test_jpV0 : after (start 0xB300 [(0x0#4, 0x04#8)])
    (fun t => t.pc == 0x0304#16) = true := by decide

/-- T42-11. -/
theorem test_jpV0_largest : after (start 0xBFFF [(0x0#4, 0xFF#8)])
    (fun t => t.pc == 0x10FE#16) = true := by decide

/-- T42-13, for whatever byte is drawn. -/
theorem test_rnd : exec (.rnd 0x3#4 0x0F#8) State.reset =
    .next (advance ((State.reset.setReg 0x3#4 (Config.rnd 0 &&& 0x0F#8)).setDraws 1)) := by rfl

/-- T42-15: mask 0 gives 0 for every draw. -/
theorem test_rnd_mask_zero : ∃ t, exec (.rnd 0x3#4 0x00#8) State.reset = .next t ∧ t.reg 0x3#4 = 0x00#8 :=
  ⟨_, rfl, by simp⟩

/-! ## Display -/

/-- T43-1. -/
theorem test_cls : after ({ start 0x00E0 [] with fb := (blankFramebuffer.set 0 1#64).set 31 0x8000000000000000#64 })
    (fun t => t.fb == blankFramebuffer && t.dirty && t.pc == 0x0202#16) = true := by decide

/-- T43-8. -/
theorem test_drw_collision : after ({ stored ((start 0xD121 []).setI 0x0300#16) 0x300 [0xC0#8] with fb := blankFramebuffer.set 0 2#64 })
    (fun t => cell t.fb 0 0 && !(cell t.fb 1 0) && t.reg 0xF#4 == 0x01#8 && t.dirty && t.pc == 0x0202#16) = true := by decide

/-- T43-6. -/
theorem test_drw_clips_columns : after (stored ((start 0xD121 [(0x1#4, 0x3C#8)]).setI 0x0300#16) 0x300 [0xFF#8])
    (fun t => cell t.fb 60 0 && cell t.fb 63 0 && !(cell t.fb 0 0) && !(cell t.fb 3 0) && t.reg 0xF#4 == 0x00#8) = true := by decide

/-! ## Keys and timers -/

/-- T44-5. -/
theorem test_skp_held : after (held (start 0xE39E [(0x3#4, 0x15#8)]) [0x5#4])
    (fun t => t.pc == 0x0204#16) = true := by decide

/-- T44-2. -/
theorem test_skp_other_key : after (held (start 0xE39E [(0x3#4, 0x05#8)]) [0x4#4])
    (fun t => t.pc == 0x0202#16) = true := by decide

/-- T44-3. -/
theorem test_sknp_held : after (held (start 0xE3A1 [(0x3#4, 0x05#8)]) [0x5#4])
    (fun t => t.pc == 0x0202#16) = true := by decide

/-- T44-4. -/
theorem test_sknp_other_key : after (held (start 0xE3A1 [(0x3#4, 0x05#8)]) [0x4#4])
    (fun t => t.pc == 0x0204#16) = true := by decide

/-- T44-9. -/
theorem test_ldVxDt : after ((start 0xF307 []).setDt 0x2A#8)
    (fun t => t.reg 0x3#4 == 0x2A#8 && t.dt == 0x2A#8 && t.pc == 0x0202#16) = true := by decide

/-- T44-11. -/
theorem test_ldDtVx : after (start 0xF315 [(0x3#4, 0x2A#8)])
    (fun t => t.dt == 0x2A#8 && t.st == 0x00#8 && t.pc == 0x0202#16) = true := by decide

/-- T44-12. -/
theorem test_ldStVx : after (start 0xF318 [(0x3#4, 0x2A#8)])
    (fun t => t.st == 0x2A#8 && t.dt == 0x00#8 && soundActive t && t.pc == 0x0202#16) = true := by decide

/-- T44-14. -/
theorem test_ldVxK_waits : after (start 0xF30A [(0x3#4, 0x77#8)])
    (fun t => decide (t = start 0xF30A [(0x3#4, 0x77#8)])) = true := by decide

/-- T44-15. -/
theorem test_ldVxK_lowest : after (held (start 0xF30A [(0x3#4, 0x77#8)]) [0xC#4, 0x9#4])
    (fun t => t.reg 0x3#4 == 0x09#8 && t.pc == 0x0202#16) = true := by decide

/-! ## Memory transfer and legacy calls -/

/-- T45-7. -/
theorem test_ldB : after ((start 0xF333 [(0x3#4, 0xFF#8)]).setI 0x0FFD#16)
    (fun t => t.byte 0xFFD == 0x02#8 && t.byte 0xFFE == 0x05#8 && t.byte 0xFFF == 0x05#8 && t.pc == 0x0202#16) = true := by decide

/-- T45-8: no partial write. -/
theorem test_ldB_fault : faults (stored ((start 0xF333 [(0x3#4, 0xFF#8)]).setI 0x0FFE#16) 0xFFE [0xAA#8, 0xBB#8]) (.memoryFault 0x1000) = true := by decide

/-- T45-12. -/
theorem test_storeRegs_quirk : after ((quirky 0xF255 [(0x0#4, 0x11#8), (0x1#4, 0x22#8), (0x2#4, 0x33#8), (0x3#4, 0x44#8)]).setI 0x0300#16)
    (fun t => t.byte 0x300 == 0x11#8 && t.byte 0x302 == 0x33#8 && t.byte 0x303 == 0x00#8 && t.I == 0x0303#16 && t.pc == 0x0202#16) = true := by decide

/-- T45-15: no partial write, no increment. -/
theorem test_storeRegs_fault : faults (stored ((quirky 0xF155 [(0x0#4, 0x11#8), (0x1#4, 0x22#8)]).setI 0x0FFF#16) 0xFFF [0xEE#8]) (.memoryFault 0x1000) = true := by decide

/-- T45-17. -/
theorem test_loadRegs : after (stored ((start 0xF265 [(0x3#4, 0x44#8)]).setI 0x0300#16) 0x300 [0xDE#8, 0xAD#8, 0xBE#8, 0xEF#8])
    (fun t => t.reg 0x0#4 == 0xDE#8 && t.reg 0x1#4 == 0xAD#8 && t.reg 0x2#4 == 0xBE#8 && t.reg 0x3#4 == 0x44#8 && t.I == 0x0300#16 && t.pc == 0x0202#16) = true := by decide

/-- T45-19. -/
theorem test_loadRegs_glyphs : after ((quirky 0xFF65 []).setI 0x0050#16)
    (fun t => t.reg 0x0#4 == 0xF0#8 && t.reg 0x1#4 == 0x90#8 && t.reg 0x5#4 == 0x20#8 && t.reg 0xC#4 == 0xF0#8 && t.reg 0xD#4 == 0x80#8 && t.reg 0xF#4 == 0xF0#8 && t.I == 0x0060#16) = true := by decide

/-- T46-3. -/
theorem test_sys : faults (start 0x0123 []) (.unsupportedLegacyOpcode 0x0123#16) = true := by decide

/-- T46-7. -/
theorem test_sys_extended : faults (start 0x00FF []) (.unsupportedLegacyOpcode 0x00FF#16) = true := by decide

/-! ## Fetch, halting, the other agents -/

/-- T60-1. -/
theorem test_fetch_last_word : after (stored (State.reset.setPc 0x0FFE#16) 0xFFE [0x12#8, 0x00#8])
    (fun t => t.pc == 0x0200#16) = true := by decide

/-- T60-2, T60-3, T60-4. -/
theorem test_fetch_past_memory : (faults (State.reset.setPc 0x0FFF#16) (.memoryFault 0x1000) &&
    faults (State.reset.setPc 0x1000#16) (.memoryFault 0x1000) && faults (State.reset.setPc 0x10FE#16) (.memoryFault 0x10FE)) = true := by decide

/-- T60-6. -/
theorem test_fetch_glyph_table : faults (State.reset.setPc 0x0050#16) (.unknownOpcode 0xF090#16) = true := by decide

/-- T46-1: the run from reset with no program. -/
theorem test_fetch_empty_memory : faults State.reset (.unknownOpcode 0x0000#16) = true := by decide

/-- T60-7. -/
theorem test_halted : after ((start 0x6A0F []).setFault (some .callStackOverflow))
    (fun t => decide (t = (start 0x6A0F []).setFault (some .callStackOverflow))) = true := by decide

/-- T44-32. -/
theorem test_tick : (tick ((State.reset.setDt 0x01#8).setSt 0x02#8) == ((State.reset.setDt 0x00#8).setSt 0x01#8, true)) = true := by decide

/-- T44-31. -/
theorem test_tick_saturates : (tick State.reset == (State.reset, false)) = true := by decide

/-- R170: a scheduled operation is the step. -/
theorem test_scheduled_tick : after (((start 0x6A0F []).setDt 0x03#8).setSchedule [.tick])
    (fun t => t.dt == 0x02#8 && t.pc == 0x0200#16 && t.schedule == []) = true := by decide

/-- R58, R186: PowerOn with another glyph table writes that table at 0x050..0x09F and nothing beside it. -/
theorem test_powerOn_other_glyphs : after (State.reset.setSchedule
    [.powerOn { State.reset.params with glyphs := Vector.replicate 80 0xFF#8 } [0x12#8, 0x34#8]])
    (fun t => t.byte 0x04F == 0x00#8 && t.byte 0x050 == 0xFF#8 && t.byte 0x09F == 0xFF#8 && t.byte 0x0A0 == 0x00#8 &&
      t.byte 0x200 == 0x12#8 && t.byte 0x201 == 0x34#8) = true := by decide

/-- R58: the first byte of the glyphs 1, A and F, at 0x050 + 5*d, under the default of GLYPHS. -/
theorem test_default_glyphs : State.reset.byte 0x055 = 0x20#8 ∧ State.reset.byte 0x083 = 0x90#8 ∧
    State.reset.byte 0x09F = 0x80#8 ∧ State.reset.params.glyphs.get 79 = 0x80#8 := by decide

/-- T60-8: Reset keeps the key latch and the program, and clears the fault. -/
theorem test_reset : (hostReset (held (stored (State.reset.setFault (some (.memoryFault 0x1000))) 0x300 [0x77#8])
    [0x1#4])).byte 0x300 = 0x77#8 := by
  rw [State.byte, hostReset_mem, peek_pokeBytes_outside _ _ (by rw [Vector.length_toList]; decide)]
  decide

/-- The state after reset is PowerOn's with an empty image (R186). -/
theorem test_reset_is_powered_on : State.reset = poweredOn State.reset.params [] State.reset := by rfl

/-- The host's fixed name: the very next step runs the stored word, from a halted state with pc past memory too. -/
theorem test_withFetchWord : after (((State.reset.setPc 0x10FE#16).setFault (some .callStackOverflow)).withFetchWord 16
    0x6A0F) (fun t => t.reg 0xA#4 == 0x0F#8 && t.pc == 0x0202#16) = true := by decide

/-! ## Witnesses of the obligations' hypotheses -/

theorem inv_start : Inv (start 0x2ABC []) :=
  { memory := by decide, pc := by decide, returns := by decide, fault := trivial }

/-- A well-formed instruction of the one checked form. -/
theorem test_witness_DecodeInvertsEncode : (Instr.sys 0xFFF#12).wellFormed = true ∧ Instr.cls.wellFormed = true :=
  by decide

/-- A word that decodes. -/
theorem test_witness_EncodeInvertsDecode : decodeWord 0xDABF#16 = .ok (.drw 0xA#4 0xB#4 0xF#4) :=
  by decide

/-- A word that is rejected. -/
theorem test_witness_RejectedWordsAreThoseOfTheTable : decodeWord 0xFF66#16 = .error (.unknownOpcode 0xFF66#16) :=
  by decide

/-- A call from a state that satisfies the invariant. -/
theorem test_witness_EveryStepKeepsTheInvariant : ∃ t, Inv (start 0x2ABC []) ∧ step (start 0x2ABC []) = .next t ∧ t.sp = 1 :=
  ⟨_, inv_start, rfl, rfl⟩

/-- Both clauses, the word at the last fetchable address. -/
theorem test_witness_StepRunsTheDecodedInstruction : ∃ s u : State, s.fault = none ∧ s.pc.toNat < 0xFFF ∧ s.pc.toNat = 0xFFE ∧
    decodeWord (wordAtPc s) = .ok (.jp 0x200#12) ∧ s.schedule = [] ∧
    u.fault = none ∧ u.pc.toNat < 0xFFF ∧ decodeWord (wordAtPc u) = .ok (.jp 0x200#12) ∧ u.schedule = [.step, .tick] :=
  ⟨stored (State.reset.setPc 0x0FFE#16) 0xFFE [0x12#8, 0x00#8],
    (stored (State.reset.setPc 0x0FFE#16) 0xFFE [0x12#8, 0x00#8]).setSchedule [.step, .tick], by decide⟩

/-- An empty schedule and one with two operations. -/
theorem test_witness_ScheduledOperationIsPerformed : State.reset.schedule = [] ∧ (State.reset.setSchedule [.reset, .tick]).schedule = .reset :: [.tick] :=
  ⟨rfl, rfl⟩

/-- At the first address a fetch fails from, and at the largest pc. -/
theorem test_witness_FetchOutsideMemoryFaults : (State.reset.setPc 0x0FFF#16).fault = none ∧ 0xFFF ≤ (State.reset.setPc 0x0FFF#16).pc.toNat ∧
    0xFFF ≤ (State.reset.setPc 0x10FE#16).pc.toNat :=
  by decide

/-- The state after reset meets an unknown word. -/
theorem test_witness_UnknownWordTakesItsFault : State.reset.fault = none ∧ State.reset.pc.toNat < 0xFFF ∧ ∀ i, decodeWord (wordAtPc State.reset) ≠ .ok i :=
  ⟨by decide, by decide, fun i h => by
    rw [show decodeWord (wordAtPc State.reset) = .error (.unknownOpcode 0x0000#16) by decide] at h
    cases h⟩

/-- A halted state. -/
theorem test_witness_HaltedMachineStandsStill : (State.reset.setFault (some .callStackUnderflow)).fault ≠ none :=
  by decide

/-- A step that faults. -/
theorem test_witness_FaultingStepChangesOnlyFault : ∃ t, State.reset.fault = none ∧ executorStep State.reset = .next t ∧ t.fault ≠ none :=
  ⟨_, rfl, rfl, by decide⟩

/-- Each source of a fault: fetch, unknown word, legacy word, full stack, empty stack, data access; and an operation that is no Step. -/
theorem test_witness_FaultsComeOnlyFromTheListedSources : (∀ s ∈ [State.reset.setPc 0x0FFF#16, State.reset, start 0x0123 [], { start 0x2ABC [] with sp := 16 },
      start 0x00EE [], (start 0xF333 []).setI 0x0FFE#16],
      s.fault = none ∧ after s (fun t => t.fault.isSome) = true) ∧
    (Operation.tick ≠ .step ∧ ∃ t, perform .tick State.reset = .next t) :=
  ⟨by decide, by decide, _, rfl⟩

/-- An instruction that completes, one that faults, the bytes beside a store, an entry beside a call, a cell beside a sprite. -/
theorem test_witness_EveryInstructionKeepsItsFrame : (∃ t, exec (.addReg 0x0#4 0x1#4) State.reset = .next t) ∧ (∃ t, exec .ret State.reset = .next t ∧ t.fault ≠ none) ∧
    (∃ t, exec (.ldB 0x3#4) (State.reset.setI 0x0300#16) = .next t ∧ 0x2FF < (State.reset.setI 0x0300#16).I.toNat ∧
      (State.reset.setI 0x0300#16).I.toNat + accessLength (.ldB 0x3#4) ≤ 0x303) ∧
    (∃ t, exec (.call 0xABC#12) State.reset = .next t ∧ (1 : Fin 16).val ≠ State.reset.sp.val) ∧
    ∃ t, exec (.drw 0x0#4 0x0#4 0x1#4) State.reset = .next t ∧ Instr.drw 0x0#4 0x0#4 0x1#4 ≠ .cls ∧
      ∀ x y n, Instr.drw 0x0#4 0x0#4 0x1#4 = .drw x y n → ¬ SpriteCovers State.reset
        ((State.reset.reg x).toNat % 64) ((State.reset.reg y).toNat % 32) n.toNat 8 0 :=
  ⟨⟨_, rfl⟩, ⟨_, rfl, by decide⟩, ⟨_, rfl, by decide, by decide⟩, ⟨_, rfl, by decide⟩, _, rfl, by decide,
    fun x y n h ⟨r, c, _, hc, _, hx, _⟩ => by
      cases h
      have h0 : ((State.reset.reg 0x0#4).toNat % 64) = 0 := by decide
      have h8 : (8 : Fin 64).val = 8 := rfl
      omega⟩

/-- A store that completes. -/
theorem test_witness_GenericAdvanceByTwo : ∃ t, setsOwnPc (.storeRegs 0x2#4) = false ∧ (State.reset.setI 0x0300#16).fault = none ∧
    exec (.storeRegs 0x2#4) (State.reset.setI 0x0300#16) = .next t ∧ t.fault = none :=
  ⟨_, rfl, rfl, rfl, rfl⟩

/-- A Step that writes the delay timer, and a dirty screen before a Step. -/
theorem test_witness_StepLeavesLatchAndTimers : (∃ t, executorStep (start 0xF315 [(0x3#4, 0x2A#8)]) = .next t ∧ t.dt = 0x2A#8) ∧
    ∃ t, executorStep (State.reset.setDisplay blankFramebuffer true) = .next t ∧ t.dirty = true :=
  ⟨⟨_, rfl, by decide⟩, _, rfl, by decide⟩

/-- An instruction other than FX18. -/
theorem test_witness_SoundTimerIsNeverRead : (∀ x, Instr.ldVxDt 0x3#4 ≠ .ldStVx x) ∧ ∃ t, exec (.ldVxDt 0x3#4) State.reset = .next t :=
  ⟨fun x h => (by cases h), _, rfl⟩

/-- Fifteen and sixteen entries in use, the two sides of the boundary. -/
theorem test_witness_CallPushesTheNextAddress : ({ State.reset with sp := 15 } : State).sp.val < 16 ∧ ({ State.reset with sp := 16 } : State).sp.val = 16 :=
  by decide

/-- One, sixteen and no entries in use. -/
theorem test_witness_ReturnPopsIntoPc : (0 : Fin 16).val + 1 = ({ State.reset with sp := 1 } : State).sp.val ∧
    (15 : Fin 16).val + 1 = ({ State.reset with sp := 16 } : State).sp.val ∧ State.reset.sp.val = 0 :=
  by decide

/-- A call that fills the stack, and a later state with its stack. -/
theorem test_witness_ReturnUndoesCall : ∃ t, ({ State.reset with sp := 15 } : State).sp.val < 16 ∧
    exec (.call 0xABC#12) { State.reset with sp := 15 } = .next t ∧ (t.setReg 0x3#4 0x07#8).sp = t.sp ∧
    (t.setReg 0x3#4 0x07#8).stack = t.stack :=
  ⟨_, by decide, rfl, rfl, rfl⟩

/-- Equal and unequal. -/
theorem test_witness_SkipsComparingWithAnImmediate : State.reset.reg 0x0#4 = 0x00#8 ∧ State.reset.reg 0x0#4 ≠ 0xFF#8 :=
  by decide

/-- Equal and unequal. -/
theorem test_witness_SkipsComparingRegisters : State.reset.reg 0x0#4 = State.reset.reg 0xF#4 ∧ (State.reset.setReg 0xF#4 0x01#8).reg 0x0#4 ≠ (State.reset.setReg 0xF#4 0x01#8).reg 0xF#4 :=
  by decide

/-- Both settings of the quirk, with different registers. -/
theorem test_witness_ShiftsByOneUnderTheQuirk : ShiftOperand (start 0x8016 [(0x0#4, 0x05#8), (0x1#4, 0xF0#8)]) 0x0#4 0x1#4 0x05#8 ∧
    ShiftOperand (quirky 0x8016 [(0x0#4, 0x05#8), (0x1#4, 0xF0#8)]) 0x0#4 0x1#4 0xF0#8 :=
  by unfold ShiftOperand; decide

/-- Height 0 with I outside memory, and a sprite that ends at the last byte. -/
theorem test_witness_DrawFlipsTheCoveredCells : ((0x0#4 : Nibble) = 0x0#4 ∨ (State.reset.setI 0x2000#16).I.toNat + (0x0#4 : Nibble).toNat ≤ 0x1000) ∧
    ((0x1#4 : Nibble) = 0x0#4 ∨ (State.reset.setI 0x0FFF#16).I.toNat + (0x1#4 : Nibble).toNat ≤ 0x1000) :=
  by decide

/-- The glyph of 0 drawn twice, with a cell covered and set in between. -/
theorem test_witness_DrawingTwiceRestoresTheScreen : ∃ t u, (0x1#4 : RegIdx) ≠ VF ∧ (0x2#4 : RegIdx) ≠ VF ∧
    exec (.drw 0x1#4 0x2#4 0x5#4) (State.reset.setI 0x0050#16) = .next t ∧ t.fault = none ∧
    exec (.drw 0x1#4 0x2#4 0x5#4) t = .next u ∧
    SpriteCovers (State.reset.setI 0x0050#16) 0 0 5 0 0 ∧ cell t.fb 0 0 = true :=
  ⟨_, _, by decide, by decide, rfl, rfl, rfl, ⟨0, 0, by decide⟩, by decide⟩

/-- One byte too many, and an index far outside. -/
theorem test_witness_AccessOutsideMemoryChangesNothing : 0 < accessLength (.ldB 0x3#4) ∧ 0x1000 < (State.reset.setI 0x0FFE#16).I.toNat + accessLength (.ldB 0x3#4) ∧
    0 < accessLength (.drw 0x0#4 0x0#4 0x1#4) ∧
    0x1000 < (State.reset.setI 0xFFFF#16).I.toNat + accessLength (.drw 0x0#4 0x0#4 0x1#4) :=
  by decide

/-- The highest key, its nibble below a nonzero upper nibble, held and not held. -/
theorem test_witness_SkipsOnAKey : (0xF#4 : KeyIdx).toNat = ((State.reset.setReg 0x3#4 0xAF#8).reg 0x3#4).toNat % 16 ∧
    (held State.reset [0xF#4]).key 0xF#4 = true ∧ State.reset.key 0xF#4 = false :=
  by decide

/-- No key, the lowest key, and the highest alone. -/
theorem test_witness_KeyWaitTakesTheLowestHeldKey : (∀ k, State.reset.key k = false) ∧ ((held State.reset [0x0#4]).key 0x0#4 = true) ∧
    ((held State.reset [0xF#4]).key 0xF#4 = true ∧
      ∀ j : KeyIdx, j.toNat < (0xF#4 : KeyIdx).toNat → (held State.reset [0xF#4]).key j = false) :=
  by decide

/-- The last three bytes of memory. -/
theorem test_witness_DecimalDigitsAreStored : Memory.wf (State.reset.setI 0x0FFD#16).mem = true ∧ (State.reset.setI 0x0FFD#16).I.toNat + 2 ≤ 0xFFF :=
  by decide

/-- All sixteen registers at the last sixteen bytes. -/
theorem test_witness_RegistersAreStored : Memory.wf (State.reset.setI 0x0FF0#16).mem = true ∧
    (State.reset.setI 0x0FF0#16).I.toNat + (0xF#4 : RegIdx).toNat ≤ 0xFFF :=
  by decide

/-- All sixteen registers from the last sixteen bytes. -/
theorem test_witness_RegistersAreLoaded : (State.reset.setI 0x0FF0#16).I.toNat + (0xF#4 : RegIdx).toNat ≤ 0xFFF :=
  by decide

/-- A store, then a state with the index restored and the registers overwritten. -/
theorem test_witness_LoadAfterStoreRestoresRegisters : ∃ t, Memory.wf (State.reset.setI 0x0FFF#16).mem = true ∧
    (State.reset.setI 0x0FFF#16).I.toNat + (0x0#4 : RegIdx).toNat ≤ 0xFFF ∧
    exec (.storeRegs 0x0#4) (State.reset.setI 0x0FFF#16) = .next t ∧
    ((t.setReg 0x0#4 0x99#8).setI 0x0FFF#16).I = (State.reset.setI 0x0FFF#16).I ∧
    ∀ a, ((t.setReg 0x0#4 0x99#8).setI 0x0FFF#16).byte a = t.byte a :=
  ⟨_, by decide, by decide, rfl, rfl, fun _ => rfl⟩

/-- A load from the last byte under the index quirk, then a state with the index restored. -/
theorem test_witness_StoreAfterLoadKeepsMemory : ∃ t, exec (.loadRegs 0x0#4) ((quirky 0xF065 []).setI 0x0FFF#16) = .next t ∧
    Memory.wf (t.setI 0x0FFF#16).mem = true ∧
    ((quirky 0xF065 []).setI 0x0FFF#16).I.toNat + (0x0#4 : RegIdx).toNat ≤ 0xFFF ∧ t.I = 0x1000#16 ∧
    (t.setI 0x0FFF#16).I = ((quirky 0xF065 []).setI 0x0FFF#16).I ∧ (∀ r, (t.setI 0x0FFF#16).reg r = t.reg r) ∧
    ∀ a, (t.setI 0x0FFF#16).byte a = ((quirky 0xF065 []).setI 0x0FFF#16).byte a :=
  ⟨_, rfl, by decide, by decide, by decide, rfl, fun _ => rfl, fun _ => rfl⟩

/-- FX33 whose three bytes end at the last byte of memory and FX55 whose one byte is the second of the word fetched next. -/
theorem test_witness_StoredCodeIsFetchedNext : (∃ t, Memory.wf (State.reset.setI 0x0FFD#16).mem = true ∧
      (State.reset.setI 0x0FFD#16).I.toNat + accessLength (.ldB 0x3#4) ≤ 0x1000 ∧
      exec (.ldB 0x3#4) (State.reset.setI 0x0FFD#16) = .next t ∧ (t.setPc 0x0FFE#16).pc.toNat < 0xFFF ∧
      (∀ a, (t.setPc 0x0FFE#16).byte a = t.byte a) ∧ (t.setPc 0x0FFE#16).fault = none) ∧
    ∃ t, Memory.wf (State.reset.setI 0x0203#16).mem = true ∧
      (State.reset.setI 0x0203#16).I.toNat + accessLength (.storeRegs 0x0#4) ≤ 0x1000 ∧
      exec (.storeRegs 0x0#4) (State.reset.setI 0x0203#16) = .next t ∧ t.pc.toNat = 0x202 ∧ t.fault = none :=
  ⟨⟨_, by decide, by decide, rfl, by decide, fun _ => rfl, rfl⟩, _, by decide, by decide, rfl, by decide, rfl⟩

/-- A canonical memory, the last address and the first outside. -/
theorem test_witness_MemoryReadsWhatWasWritten : Memory.wf [(0x300, 0x77#8)] = true ∧ 0xFFF ≤ 0xFFF ∧ 0xFFF < 0x1000 :=
  by decide

/-- A running machine and a halted one. -/
theorem test_witness_TickCountsBothTimersDown : State.reset.fault = none ∧ (State.reset.setFault (some (.memoryFault 0x1000))).fault ≠ none :=
  by decide

/-- A running machine. -/
theorem test_witness_TimersSaturateAtZero : State.reset.fault = none :=
  rfl

/-- Two held keys released together. -/
theorem test_witness_KeyLatchOperations : (held State.reset [0x3#4, 0xF#4]).key 0xF#4 = true ∧
    ∃ t, perform .keyClearAll (held State.reset [0x3#4, 0xF#4]) = .next t ∧ t.key 0xF#4 = false :=
  ⟨by decide, _, rfl, by decide⟩

/-- Each value of the latch. -/
theorem test_witness_FaultOutputsShowTheLatch : State.reset.fault = none ∧
    (State.reset.setFault (some (.memoryFault 0x1000))).fault = some (.memoryFault 0x1000) ∧
    (State.reset.setFault (some (.unknownOpcode 0x8018#16))).fault = some (.unknownOpcode 0x8018#16) ∧
    (State.reset.setFault (some (.unsupportedLegacyOpcode 0x0234#16))).fault = some (.unsupportedLegacyOpcode 0x0234#16) ∧
    (State.reset.setFault (some .callStackOverflow)).fault = some .callStackOverflow ∧
    (State.reset.setFault (some .callStackUnderflow)).fault = some .callStackUnderflow :=
  by decide

/-- The longest image and the empty one. -/
theorem test_witness_PowerOnConstructsTheMachine : (List.replicate 3584 0x12#8).length ≤ 3584 ∧ ([] : List Byte).length ≤ 3584 :=
  ⟨by rw [List.length_replicate], by decide⟩

/-- A canonical memory with the first glyph byte and a program byte overwritten. -/
theorem test_witness_ResetRewindsAndKeepsTheProgram : Memory.wf (stored (stored State.reset 0x300 [0x77#8]) 0x050 [0x00#8]).mem = true :=
  by decide

/-- A jump to its own address at 0x200. -/
theorem test_witness_IdleSelfJumpChangesNothing : (start 0x1200 []).fault = none ∧ (start 0x1200 []).schedule = [] ∧ (start 0x1200 []).pc.toNat < 0xFFF ∧
    (start 0x1200 []).pc.toNat = (0x200#12 : Addr12).toNat ∧ wordAtPc (start 0x1200 []) = encode (.jp 0x200#12) :=
  by decide

end Sys2Proof.Tests
end

section
/-! PROOF. The generic advance (30_encoding.md R77): what an instruction that does not set pc itself can answer. -/

namespace Sys2Proof.Machine

@[simp] theorem setRegsFrom_pc (i : Nat) (bs : List Byte) (s : State) : (setRegsFrom i bs s).pc = s.pc := by
  rw [setRegsFrom_eq]

/-- Inversion of `exec` outside the eleven: a fault taken in the state before, or the advance as the last write, after
writes that keep pc. -/
theorem exec_genericAdvance_cases {i : Instr} {s t : State} (hi : setsOwnPc i = false) (h : exec i s = .next t) :
    (∃ f, t = s.setFault (some f)) ∨ ∃ u : State, t = advance u ∧ u.pc = s.pc := by
  cases i with
  | jp | call | ret | jpV0 | seImm | sneImm | seReg | sneReg | skp | sknp | ldVxK => cases hi
  | sys => exact .inl ⟨_, (Host.Outcome.next.inj h).symm⟩
  | cls | ldImm | addImm | ldReg | orReg | andReg | xorReg | addReg | subReg | shr | subnReg | shl | ldI | rnd
  | ldVxDt | ldDtVx | ldStVx | addI | ldF => exact .inr ⟨_, (Host.Outcome.next.inj h).symm, rfl⟩
  | drw | ldB | storeRegs | loadRegs =>
    obtain hok | ⟨f, -, ht⟩ := complete_cases h
    · right
      split at hok
      · cases hok
      · exact ⟨_, (Except.ok.inj hok).symm, by simp⟩
    · exact .inl ⟨f, ht⟩

/-- Settles O16: without a fault only the advance remains of what the instruction can answer. -/
theorem genericAdvanceByTwo : Obligations.GenericAdvanceByTwo := by
  intro i s t hi _ h ht
  obtain ⟨f, rfl⟩ | ⟨u, rfl, hu⟩ := exec_genericAdvance_cases hi h
  · cases ht
  · rw [advance_pc, hu]

end Sys2Proof.Machine
end

section
/-! PROOF. Jumps and skips (40_control_flow.md R91, R94, R95): they write pc and nothing else. -/

namespace Sys2Proof.Machine

/-- Zero extension (R78) keeps the address's value. -/
@[simp] theorem addrOperand_toNat (nnn : Addr12) : (addrOperand nnn).toNat = nnn.toNat :=
  BitVec.toNat_setWidth_of_le (by decide)

/-- The one law of all skips: `P` says when the tested condition is true, `Q` when it is false. -/
theorem answers_skipIf {c : Bool} {P Q : Prop} (s : State) (hP : c = true ↔ P) (hQ : c = false ↔ Q) :
    Answers (.next (skipIf c s)) fun t =>
      (P → t.pc = s.pc + 4#16) ∧ (Q → t.pc = s.pc + 2#16) ∧ FrameBut [] [] s t := by
  refine ⟨_, rfl, fun h => ?skipped, fun h => ?notSkipped, frame_skipIf c⟩
  case skipped => rw [hP.mpr h, skipIf_pc, if_pos rfl]
  case notSkipped => rw [hQ.mpr h, skipIf_pc, if_neg Bool.false_ne_true]

/-- Settles O19: the jump is one pc update, to the zero-extended operand. -/
theorem jumpGoesToItsTarget : Obligations.JumpGoesToItsTarget := fun nnn _ =>
  ⟨_, rfl, addrOperand_toNat nnn, frame_setPc _⟩

/-- Settles O24: SE tests with `==` and SNE with `!=`, each by the law of skips. -/
theorem skipsComparingWithAnImmediate : Obligations.SkipsComparingWithAnImmediate := fun _ _ s =>
  ⟨answers_skipIf s beq_iff_eq beq_eq_false_iff_ne, answers_skipIf s bne_iff_ne bne_eq_false_iff_eq⟩

end Sys2Proof.Machine
end

section
/-! PROOF. Register loads (41_register_alu.md R100, R102): one register write and the generic advance. -/

namespace Sys2Proof.Machine

/-- The one law of all instructions that write a single register: VF is a destination like any other (R24). -/
theorem answers_setReg (x : RegIdx) (b : Byte) (s : State) :
    Answers (.next (advance (s.setReg x b))) fun t =>
      t.reg x = b ∧ t.pc = s.pc + 2#16 ∧ FrameBut [x] [] s t :=
  ⟨_, rfl, reg_setReg_same s x b, advance_pc _, frame_setReg x b⟩

/-- Settles O26: both loads are one register write, of the immediate and of `Vy` as it was before the step. -/
theorem loadsIntoARegister : Obligations.LoadsIntoARegister := fun x y nn s =>
  ⟨answers_setReg x nn s, answers_setReg x (s.reg y) s⟩

end Sys2Proof.Machine
end

section
/-! PROOF. Clearing the screen (43_display.md R125): one write of the blank grid and the flag, and the generic advance. -/

namespace Sys2Proof.Machine

/-- Every row of the blank grid is the zero word. -/
@[simp] theorem cell_blankFramebuffer (x : Fin 64) (y : Fin 32) : cell blankFramebuffer x y = false := by
  have row : blankFramebuffer.get y = 0#64 := Vector.getElem_replicate y.isLt
  rw [cell, row, BitVec.getLsbD_zero]

/-- A new grid and a new DIRTY, then the advance: nothing but these two parts changes. -/
theorem frame_setDisplay {s : State} (fb : Framebuffer) (d : Bool) :
    FrameBut [] [.screen, .dirtyFlag] s (advance (s.setDisplay fb d)) := by
  refine ⟨fun r _ => rfl, fun p hp => ?_, rfl, rfl⟩
  cases p <;> simp_all [Part.kept]

/-- Settles O34: the written grid is blank and the written flag is true, neither computed from the old grid. -/
theorem clearScreenBlanksAndMarksDirty : Obligations.ClearScreenBlanksAndMarksDirty := fun s =>
  ⟨_, rfl, cell_blankFramebuffer, setDisplay_dirty s blankFramebuffer true, advance_pc _, frame_setDisplay _ _⟩

end Sys2Proof.Machine
end

section
/-! PROOF. Timer transfers (44_keys_and_timers.md R136, R137, R138): one write of a register or of a counter, and the
generic advance. -/

namespace Sys2Proof.Machine

theorem frame_setDt {s : State} (b : Byte) : FrameBut [] [.delayTimer] s (advance (s.setDt b)) := by
  refine ⟨fun r _ => rfl, fun p hp => ?_, rfl, rfl⟩
  cases p <;> simp_all [Part.kept]

theorem frame_setSt {s : State} (b : Byte) : FrameBut [] [.soundTimer] s (advance (s.setSt b)) := by
  refine ⟨fun r _ => rfl, fun p hp => ?_, rfl, rfl⟩
  cases p <;> simp_all [Part.kept]

/-- Settles O39: the read of DT is one register write; sound_active is computed from ST, which FX18 has just written. -/
theorem timerTransfers : Obligations.TimerTransfers := fun x s =>
  ⟨answers_setReg x s.dt s,
    ⟨_, rfl, setDt_dt s (s.reg x), advance_pc _, frame_setDt _⟩,
    ⟨_, rfl, setSt_st s (s.reg x), soundActive_iff _, advance_pc _, frame_setSt _⟩⟩

end Sys2Proof.Machine
end

section
/-! PROOF. The input latch (60_exceptions.md R179, R180): what its two operations write, and that among all operations of
all agents only they and PowerOn write KEYS, each the whole latch cleared or one key set. -/

namespace Sys2Proof.Machine

variable {s t : State}

/-! ### The executor writes no key -/

@[simp] theorem setRegsFrom_keys (i : Nat) (bs : List Byte) (s : State) : (setRegsFrom i bs s).keys = s.keys := by
  rw [setRegsFrom_eq]

/-- A result that keeps KEYS still does when completed: a fault is taken in the state before. -/
theorem complete_keys {e : Except FaultRecord State} (he : ∀ u, e = .ok u → u.keys = s.keys)
    (h : complete s e = .next t) : t.keys = s.keys := by
  obtain hok | ⟨f, -, rfl⟩ := complete_cases h
  · exact he t hok
  · exact setFault_keys s _

theorem push_keys {a : Word} (h : push a s = .ok t) : t.keys = s.keys := by
  unfold push at h
  split at h
  · obtain rfl := Except.ok.inj h
    rfl
  · cases h

theorem pop_keys {a : Word} (h : pop s = .ok (a, t)) : t.keys = s.keys := by
  unfold pop at h
  split at h
  · cases h
    rfl
  · cases h

/-- No instruction writes KEYS (R42): the executor only reads the latch. -/
theorem exec_keys {i : Instr} (h : exec i s = .next t) : t.keys = s.keys := by
  cases i with
  | call =>
    refine complete_keys (fun u hu => ?_) h
    split at hu
    · rename_i hp
      obtain rfl := Except.ok.inj hu
      exact (setPc_keys _ _).trans (push_keys hp)
    · cases hu
  | ret =>
    refine complete_keys (fun u hu => ?_) h
    split at hu
    · rename_i hp
      obtain rfl := Except.ok.inj hu
      exact (setPc_keys _ _).trans (pop_keys hp)
    · cases hu
  | drw | ldB | storeRegs | loadRegs =>
    refine complete_keys (fun u hu => ?_) h
    split at hu
    · cases hu
    · obtain rfl := Except.ok.inj hu
      simp
  | ldVxK =>
    rw [exec, execLdVxK] at h
    split at h <;> exact (Host.Outcome.next.inj h) ▸ rfl
  | sys | cls | jp | seImm | sneImm | seReg | sneReg | ldImm | addImm | ldReg | orReg | andReg | xorReg | addReg | subReg
  | shr | subnReg | shl | ldI | jpV0 | rnd | skp | sknp | ldVxDt | ldDtVx | ldStVx | addI | ldF =>
    exact (Host.Outcome.next.inj h) ▸ rfl

theorem executeWord_keys {w : Word} (h : executeWord w s = .next t) : t.keys = s.keys := by
  unfold executeWord at h
  split at h
  · exact (Host.Outcome.next.inj h) ▸ rfl
  · exact exec_keys h

theorem executorStep_keys (h : executorStep s = .next t) : t.keys = s.keys := by
  obtain ⟨-, hs⟩ | ⟨-, -, hs⟩ | ⟨-, -, hs⟩ := executorStep_cases s <;> rw [hs] at h
  · exact (Host.Outcome.next.inj h) ▸ rfl
  · exact (Host.Outcome.next.inj h) ▸ rfl
  · exact executeWord_keys h

/-! ### The operations of all agents -/

@[simp] theorem tickState_keys (s : State) : (tickState s).keys = s.keys := by
  unfold tickState
  split <;> rfl

theorem powerOn_next {params : Params} {image : List Byte} (h : powerOn params image s = .next t) :
    t = poweredOn params image s := by
  unfold powerOn at h
  split at h
  · exact (Host.Outcome.next.inj h).symm
  · cases h

/-- All that an operation can do to KEYS: nothing, clear every key (KeyClearAll, PowerOn), or set one key (KeySet). -/
theorem perform_key_cases {op : Operation} (h : perform op s = .next t) :
    t.keys = s.keys ∨ (∀ j, t.key j = false) ∨ ∃ k, t = keySet k s := by
  cases op with
  | step => exact .inl (executorStep_keys h)
  | tick =>
    obtain rfl := Host.Outcome.next.inj h
    exact .inl (tickState_keys s)
  | keyClearAll =>
    obtain rfl := Host.Outcome.next.inj h
    exact .inr (.inl (key_keyClearAll s))
  | keySet k => exact .inr (.inr ⟨k, (Host.Outcome.next.inj h).symm⟩)
  | takeFrame =>
    obtain rfl := Host.Outcome.next.inj h
    exact .inl rfl
  | reset =>
    obtain rfl := Host.Outcome.next.inj h
    exact .inl (hostReset_keys s)
  | powerOn params image =>
    obtain rfl := powerOn_next h
    exact .inr (.inl fun j => by simp [State.key])

/-! ### The latch operations -/

theorem frame_setKeys (k : Vector Bool 16) : FrameBut [] [.keyLatch] s (s.setKeys k) := by
  refine ⟨fun r _ => rfl, fun p hp => ?_, rfl, rfl⟩
  cases p <;> simp_all [Part.kept]

/-- KeySet releases no key (R180). -/
theorem key_keySet_of_held {j : KeyIdx} (k : KeyIdx) (h : s.key j = true) : (keySet k s).key j = true := by
  rw [key_keySet, h, ite_self]

/-- Settles O51: an operation that releases a held key neither kept KEYS nor was a KeySet, so it cleared the latch. -/
theorem keyLatchOperations : Obligations.KeyLatchOperations := by
  refine ⟨fun s k => ⟨key_keyClearAll s, setKeys_pc s _, frame_setKeys _, key_keySet s k, setKeys_pc s _,
    frame_setKeys _⟩, fun op s t k h hheld hreleased => ?_⟩
  obtain hkept | hcleared | ⟨q, rfl⟩ := perform_key_cases h
  · rw [State.key, hkept, ← State.key, hheld] at hreleased
    cases hreleased
  · exact hcleared
  · rw [key_keySet_of_held q hheld] at hreleased
    cases hreleased

end Sys2Proof.Machine
end

section
/-! PROOF. The encoding (30_encoding.md R73, R74, R79): the two round trips of decoder and encoder, family by family,
and the words the decoder rejects. -/

namespace Sys2Proof.Machine

/-! ### Decoding an encoded instruction -/

/-- The exclusion list of the 0NNN row is what makes a legacy call's word decode to the call (R74). -/
theorem decodeFamily0_sys {nnn : Addr12} (h : notLegacy nnn = false) :
    decodeFamily0 (0x0#4 ++ nnn) = .ok (.sys nnn) := by
  simp only [notLegacy, Bool.or_eq_false_iff, beq_eq_false_iff_ne] at h
  obtain ⟨⟨hzero, hcls⟩, hret⟩ := h
  have notWord {v : Word} (hne : nnn ≠ fieldNNN v) : (0x0#4 ++ nnn : Word) ≠ v := by
    rintro rfl
    exact hne (fieldNNN_nnn _ _).symm
  rw [decodeFamily0, if_neg (notWord (v := 0x00E0#16) hcls), if_neg (notWord (v := 0x00EE#16) hret), fieldNNN_nnn,
    if_pos hzero]

/-- Settles O1: the family nibble of the encoded word selects the family, its sub-opcode the row. -/
theorem decodeInvertsEncode : Obligations.DecodeInvertsEncode := by
  intro i h
  cases i with
  | cls | ret => rfl
  | sys nnn =>
    rw [encode, decodeWord, fieldOp_nnn]
    exact decodeFamily0_sys (by simpa [Instr.wellFormed] using h)
  | jp | call | seImm | sneImm | seReg | ldImm | addImm | sneReg | ldI | jpV0 | rnd | drw => simp [encode, decodeWord]
  | ldReg | orReg | andReg | xorReg | addReg | subReg | shr | subnReg | shl =>
    simp [encode, decodeWord, decodeFamily8]
  | skp | sknp => simp [encode, decodeWord, decodeFamilyE]
  | ldVxDt | ldVxK | ldDtVx | ldStVx | addI | ldF | ldB | storeRegs | loadRegs =>
    simp [encode, decodeWord, decodeFamilyF]

/-! ### Encoding a decoded word -/

/-- Family 0 decodes a word to a legacy call only outside the exclusion list (R74). -/
theorem encode_of_decodeFamily0 {w : Word} {i : Instr} (hop : fieldOp w = 0x0#4) (h : decodeFamily0 w = .ok i) :
    encode i = w ∧ i.wellFormed = true := by
  unfold decodeFamily0 at h
  split at h
  case isTrue hcls => cases h; exact ⟨hcls.symm, rfl⟩
  split at h
  case isTrue hret => cases h; exact ⟨hret.symm, rfl⟩
  split at h
  case isFalse => cases h
  rename_i hcls hret hzero
  cases h
  have hw : (0x0#4 ++ fieldNNN w : Word) = w := hop ▸ word_eq_nnn w
  have notField {a : Addr12} (hne : w ≠ 0x0#4 ++ a) : fieldNNN w ≠ a := fun he => hne (by rw [← he, hw])
  have hcls' : fieldNNN w ≠ 0x0E0#12 := notField hcls
  have hret' : fieldNNN w ≠ 0x0EE#12 := notField hret
  exact ⟨hw, by simp [Instr.wellFormed, notLegacy, hzero, hcls', hret']⟩

/-- Settles O2: a word that decodes is put together from the fields the decoder took from it. -/
theorem encodeInvertsDecode : Obligations.EncodeInvertsDecode := by
  intro w i h
  have hnnn := word_eq_nnn w
  have hxnn := word_eq_xnn w
  have hxyn := word_eq_xyn w
  unfold decodeWord decodeFamily8 decodeFamilyE decodeFamilyF at h
  split at h
  case h_1 hop => exact encode_of_decodeFamily0 hop h
  case h_2 hop | h_3 hop | h_11 hop | h_12 hop =>
    cases h
    exact ⟨by rwa [hop] at hnnn, rfl⟩
  case h_4 hop | h_5 hop | h_7 hop | h_8 hop | h_13 hop =>
    cases h
    exact ⟨by rwa [hop] at hxnn, rfl⟩
  case h_14 hop =>
    cases h
    exact ⟨by rwa [hop] at hxyn, rfl⟩
  case h_6 hop | h_9 hop | h_10 hop =>
    split at h <;> cases h
    all_goals
      rename_i hn
      exact ⟨by rwa [hop, hn] at hxyn, rfl⟩
  case h_15 hop | h_16 hop =>
    split at h <;> cases h
    all_goals
      rename_i hnn
      exact ⟨by rwa [hop, hnn] at hxnn, rfl⟩
  case h_17 => cases h

/-! ### The rejected words -/

section
variable {w : Word} {e : DecodeError}

theorem word_eq_zero_iff : w = 0x0000#16 ↔ fieldOp w = 0x0#4 ∧ fieldNNN w = 0x000#12 := by
  refine ⟨by rintro rfl; decide, fun ⟨hop, hnnn⟩ => ?_⟩
  rw [← word_eq_nnn w, hop, hnnn]
  rfl

theorem decodeFamily0_error : (∃ e, decodeFamily0 w = .error e) ↔ fieldNNN w = 0x000#12 := by
  unfold decodeFamily0
  split
  case isTrue hcls => simp [hcls, show fieldNNN 0x00E0#16 ≠ 0x000#12 by decide]
  split
  case isTrue hret => simp [hret, show fieldNNN 0x00EE#16 ≠ 0x000#12 by decide]
  split <;> simp_all

/-- The table of R79 lists for family 8 the sub-opcodes that are not assigned. -/
theorem unassigned_iff (n : Nibble) : n ∈ [0x8#4, 0x9#4, 0xA#4, 0xB#4, 0xC#4, 0xD#4, 0xF#4] ↔
    n ∉ [0x0#4, 0x1#4, 0x2#4, 0x3#4, 0x4#4, 0x5#4, 0x6#4, 0x7#4, 0xE#4] := by
  revert n
  decide

theorem decodeFamily8_error : (∃ e, decodeFamily8 w = .error e) ↔
    fieldN w ∈ [0x8#4, 0x9#4, 0xA#4, 0xB#4, 0xC#4, 0xD#4, 0xF#4] := by
  rw [unassigned_iff]
  unfold decodeFamily8
  split <;> simp_all

theorem decodeFamilyE_error : (∃ e, decodeFamilyE w = .error e) ↔ fieldNN w ∉ [0x9E#8, 0xA1#8] := by
  unfold decodeFamilyE
  split <;> simp_all

theorem decodeFamilyF_error : (∃ e, decodeFamilyF w = .error e) ↔ fieldNN w ∉
    [0x07#8, 0x0A#8, 0x15#8, 0x18#8, 0x1E#8, 0x29#8, 0x33#8, 0x55#8, 0x65#8] := by
  unfold decodeFamilyF
  split <;> simp_all

/-- What the decoder rejects carries the word. -/
theorem decodeWord_error_word (h : decodeWord w = .error e) : e = .unknownOpcode w := by
  unfold decodeWord decodeFamily0 decodeFamily8 decodeFamilyE decodeFamilyF at h
  split at h
  case h_1 =>
    split at h
    · cases h
    split at h
    · cases h
    split at h <;> cases h
    rfl
  case h_6 | h_9 | h_10 | h_15 | h_16 =>
    split at h <;> cases h
    rfl
  case h_17 =>
    cases h
    rfl
  all_goals cases h

/-- Every family nibble is one of the sixteen of the opcode map. -/
theorem family_listed (n : Nibble) : n ∈ [0x0#4, 0x1#4, 0x2#4, 0x3#4, 0x4#4, 0x5#4, 0x6#4, 0x7#4, 0x8#4, 0x9#4, 0xA#4,
    0xB#4, 0xC#4, 0xD#4, 0xE#4, 0xF#4] := by
  revert n
  decide

end

/-- Settles O3: a row of R79's table is what one family rejects; the families without a row reject nothing. -/
theorem rejectedWordsAreThoseOfTheTable : Obligations.RejectedWordsAreThoseOfTheTable := by
  intro w
  refine ⟨?_, fun e => decodeWord_error_word⟩
  rw [word_eq_zero_iff]
  unfold decodeWord
  split
  case h_1 hop => simp [hop, decodeFamily0_error]
  case h_6 hop | h_10 hop => split <;> simp [*]
  case h_9 hop => simp [hop, decodeFamily8_error]
  case h_15 hop => simp [hop, decodeFamilyE_error]
  case h_16 hop => simp [hop, decodeFamilyF_error]
  case h_17 =>
    have := family_listed (fieldOp w)
    simp_all
  all_goals simp [*]

/-- Settles O4: each word is decoded by evaluation. -/
theorem exampleWordsDecode : Obligations.ExampleWordsDecode := by
  unfold Obligations.ExampleWordsDecode
  and_intros <;> rfl

end Sys2Proof.Machine
end

section
/-! PROOF. What an instruction can answer (files 40 to 46, 60_exceptions.md R159): the inversion of every instruction
that may raise, which fault it raises and when, and what it does to memory, to the call stack and to the cells. -/

namespace Sys2Proof.Machine

variable {i : Instr} {s t : State}

/-! ### Accesses that leave memory -/

/-- Settles O37: the byte sequence faults with the first address above memory, and a fault discards every write. -/
theorem accessOutsideMemoryChangesNothing : Obligations.AccessOutsideMemoryChangesNothing := by
  intro i s hpos hout
  have hlowest : (if s.I.toNat ≤ 0xFFF then 0x1000 else s.I.toNat) = max s.I.toNat Config.memSize := by
    rw [memSize_eq]
    split <;> omega
  rw [hlowest]
  cases i with
  | drw x y n => rw [exec, execDrw, memReadBytes_error s.mem (n := n.toNat) hpos hout]; rfl
  | loadRegs x => rw [exec, execLoadRegs, memReadBytes_error s.mem (n := x.toNat + 1) hpos hout]; rfl
  | ldB x =>
    rw [exec, execLdB, memWriteBytes_error s.mem (bcdDigits (s.reg x)) (by simp [bcdDigits]) hout]
    rfl
  | storeRegs x =>
    have hlen := regRange_length s x
    rw [exec, execStoreRegs, memWriteBytes_error s.mem (regRange s x) (List.ne_nil_of_length_pos (by omega))
      (hlen.symm ▸ hout)]
    rfl
  | _ => exact absurd hpos (Nat.lt_irrefl 0)

/-- Which fault an instruction raises, and in which state (R153, R155, R156, R157, R159). -/
def Raises (i : Instr) (s : State) (f : FaultRecord) : Prop :=
  (∃ nnn, i = .sys nnn ∧ f = .unsupportedLegacyOpcode (encode i)) ∨
  (∃ nnn, i = .call nnn ∧ s.sp.val = 16 ∧ f = .callStackOverflow) ∨
  (i = .ret ∧ s.sp.val = 0 ∧ f = .callStackUnderflow) ∨
  (0 < accessLength i ∧ 0x1000 < s.I.toNat + accessLength i ∧
    f = .memoryFault (if s.I.toNat ≤ 0xFFF then 0x1000 else s.I.toNat))

/-- The step ends in a fault of the instruction, taken in the state before it (R160). -/
def TakesFault (i : Instr) (s t : State) : Prop := ∃ f, Raises i s f ∧ t = s.setFault (some f)

/-- An instruction's bytes lie inside memory, or it takes its MemoryFault. -/
theorem exec_access_cases (h : exec i s = .next t) :
    (accessLength i = 0 ∨ s.I.toNat + accessLength i ≤ 4096) ∨ TakesFault i s t := by
  by_cases hin : accessLength i = 0 ∨ s.I.toNat + accessLength i ≤ 4096
  · exact .inl hin
  · have hpos : 0 < accessLength i := by omega
    have hout : 0x1000 < s.I.toNat + accessLength i := by omega
    rw [accessOutsideMemoryChangesNothing i s hpos hout] at h
    exact .inr ⟨_, .inr (.inr (.inr ⟨hpos, hout, rfl⟩)), (Host.Outcome.next.inj h).symm⟩

/-! ### The instructions that may raise, each as it completes or faults -/

theorem exec_sys_fault (nnn : Addr12) (s : State) :
    exec (.sys nnn) s = .next (s.setFault (some (.unsupportedLegacyOpcode (encode (.sys nnn))))) := rfl

theorem exec_call_full (nnn : Addr12) (h : s.sp.val = 16) :
    exec (.call nnn) s = .next (s.setFault (some .callStackOverflow)) := by
  rw [exec, execCall, push_full h]
  rfl

theorem exec_ret_empty (h : s.sp.val = 0) : exec .ret s = .next (s.setFault (some .callStackUnderflow)) := by
  rw [exec, execRet, pop_empty h]
  rfl

theorem exec_ret_pop {k : Fin 16} (hk : k.val + 1 = s.sp.val) :
    exec .ret s = .next ((s.setCallStack k.castSucc s.stack).setPc (s.entry k)) := by
  have htop : s.sp.val - 1 = k.val := by omega
  rw [exec_ret_ok (by omega)]
  simp only [htop]
  rfl

theorem exec_ldVxK_none {x : RegIdx} (h : lowestKey s = none) : exec (.ldVxK x) s = .next s := by
  rw [exec, execLdVxK, h]

theorem exec_ldVxK_some {x : RegIdx} {k : Fin 16} (h : lowestKey s = some k) :
    exec (.ldVxK x) s = .next (advance (s.setReg x (BitVec.ofNat 8 k.val))) := by
  rw [exec, execLdVxK, h]

/-- `Raises` is exact: the instruction then faults. -/
theorem exec_of_raises {f : FaultRecord} (h : Raises i s f) : exec i s = .next (s.setFault (some f)) := by
  obtain ⟨nnn, rfl, rfl⟩ | ⟨nnn, rfl, hfull, rfl⟩ | ⟨rfl, hempty, rfl⟩ | ⟨hpos, hout, rfl⟩ := h
  · exact exec_sys_fault nnn s
  · exact exec_call_full nnn hfull
  · exact exec_ret_empty hempty
  · exact accessOutsideMemoryChangesNothing i s hpos hout

theorem exec_call_cases {nnn : Addr12} (h : exec (.call nnn) s = .next t) :
    TakesFault (.call nnn) s t ∨
    ∃ hlt : s.sp.val < 16, t = (s.setCallStack ⟨s.sp.val + 1, Nat.succ_lt_succ hlt⟩
      (s.stack.set s.sp.val (s.pc + 2#16) hlt)).setPc (addrOperand nnn) := by
  by_cases hlt : s.sp.val < 16
  · rw [exec_call_ok nnn hlt] at h
    exact .inr ⟨hlt, (Host.Outcome.next.inj h).symm⟩
  · have hfull : s.sp.val = 16 := by omega
    rw [exec_call_full nnn hfull] at h
    exact .inl ⟨_, .inr (.inl ⟨nnn, rfl, hfull, rfl⟩), (Host.Outcome.next.inj h).symm⟩

theorem exec_ret_cases (h : exec .ret s = .next t) :
    TakesFault .ret s t ∨
    ∃ k : Fin 16, k.val + 1 = s.sp.val ∧ t = (s.setCallStack k.castSucc s.stack).setPc (s.entry k) := by
  by_cases hempty : s.sp.val = 0
  · rw [exec_ret_empty hempty] at h
    exact .inl ⟨_, .inr (.inr (.inl ⟨rfl, hempty, rfl⟩)), (Host.Outcome.next.inj h).symm⟩
  · have hk : s.sp.val - 1 + 1 = s.sp.val := by omega
    rw [exec_ret_pop (k := ⟨s.sp.val - 1, by omega⟩) hk] at h
    exact .inr ⟨_, hk, (Host.Outcome.next.inj h).symm⟩

/-- What `DRW` completes to: the drawing of the bytes at `I`, its change bit into DIRTY, its collision bit into VF. -/
def drawn (x y : RegIdx) (n : Nibble) (s : State) : State :=
  let d := blit ((s.reg x).toNat % 64) ((s.reg y).toNat % 32) (bytesAtI s n.toNat) s.fb
  advance ((s.setDisplay d.fb (s.dirty || d.changed)).setReg VF (flagByte d.collision))

theorem exec_drw_cases {x y : RegIdx} {n : Nibble} (h : exec (.drw x y n) s = .next t) :
    TakesFault (.drw x y n) s t ∨ (n.toNat = 0 ∨ s.I.toNat + n.toNat ≤ 4096) ∧ t = drawn x y n s := by
  obtain hin | hfault := exec_access_cases h
  · rw [exec_drw_ok x y n hin] at h
    exact .inr ⟨hin, (Host.Outcome.next.inj h).symm⟩
  · exact .inl hfault

theorem exec_ldB_cases {x : RegIdx} (h : exec (.ldB x) s = .next t) :
    TakesFault (.ldB x) s t ∨
    s.I.toNat + 3 ≤ 4096 ∧ t = advance (s.setMem (Memory.pokeBytes s.mem s.I.toNat (bcdDigits (s.reg x)))) := by
  obtain hin | hfault := exec_access_cases h
  · have hin : s.I.toNat + 3 ≤ 4096 := hin.resolve_left (by simp [accessLength])
    rw [exec_ldB_ok x hin] at h
    exact .inr ⟨hin, (Host.Outcome.next.inj h).symm⟩
  · exact .inl hfault

theorem exec_storeRegs_cases {x : RegIdx} (h : exec (.storeRegs x) s = .next t) :
    TakesFault (.storeRegs x) s t ∨
    s.I.toNat + (x.toNat + 1) ≤ 4096 ∧
      t = advance ((s.setMem (Memory.pokeBytes s.mem s.I.toNat (regRange s x))).setI (indexAfterTransfer s x)) := by
  obtain hin | hfault := exec_access_cases h
  · have hin : s.I.toNat + (x.toNat + 1) ≤ 4096 := hin.resolve_left (by simp [accessLength])
    rw [exec_storeRegs_ok x hin] at h
    exact .inr ⟨hin, (Host.Outcome.next.inj h).symm⟩
  · exact .inl hfault

theorem exec_loadRegs_cases {x : RegIdx} (h : exec (.loadRegs x) s = .next t) :
    TakesFault (.loadRegs x) s t ∨
    s.I.toNat + (x.toNat + 1) ≤ 4096 ∧
      t = advance ((setRegsFrom 0 (bytesAtI s (x.toNat + 1)) s).setI (indexAfterTransfer s x)) := by
  obtain hin | hfault := exec_access_cases h
  · have hin : s.I.toNat + (x.toNat + 1) ≤ 4096 := hin.resolve_left (by simp [accessLength])
    rw [exec_loadRegs_ok x hin] at h
    exact .inr ⟨hin, (Host.Outcome.next.inj h).symm⟩
  · exact .inl hfault

theorem exec_ldVxK_cases {x : RegIdx} (h : exec (.ldVxK x) s = .next t) :
    (lowestKey s = none ∧ t = s) ∨
    ∃ k : Fin 16, lowestKey s = some k ∧ t = advance (s.setReg x (BitVec.ofNat 8 k.val)) := by
  cases hk : lowestKey s with
  | none => exact .inl ⟨rfl, (Host.Outcome.next.inj ((exec_ldVxK_none hk).symm.trans h)).symm⟩
  | some k => exact .inr ⟨k, rfl, (Host.Outcome.next.inj ((exec_ldVxK_some hk).symm.trans h)).symm⟩

/-! ### What every instruction does to one part -/

theorem frame_takesFault {rs : List RegIdx} {ps : List Part} (h : TakesFault i s t) (hp : .faultLatch ∈ ps) :
    FrameBut rs ps s t := by
  obtain ⟨f, -, rfl⟩ := h
  exact frame_mono (frame_setFault _) (by simp) (by simpa using hp)

/-- Two register writes, then the advance. -/
theorem frame_writeWithFlag (x : RegIdx) (b : Byte) (c : Bool) :
    FrameBut [x, VF] [] s (advance (writeWithFlag x b c s)) := by
  refine ⟨fun r hr => ?_, fun p _ => ?_, rfl, rfl⟩
  · simp only [List.mem_cons, List.not_mem_nil, or_false, not_or] at hr
    rw [advance_reg, writeWithFlag, reg_setReg_ne _ _ hr.2, reg_setReg_ne _ _ hr.1]
  · cases p <;> simp [Part.kept, writeWithFlag]

theorem frame_drawn (x y : RegIdx) (n : Nibble) : FrameBut [VF] [.screen, .dirtyFlag] s (drawn x y n s) := by
  refine ⟨fun r hr => ?_, fun p hp => ?_, rfl, rfl⟩
  · rw [drawn, advance_reg, reg_setReg_ne _ _ (by simpa using hr), setDisplay_reg]
  · cases p <;> simp_all [Part.kept, drawn]

theorem frame_setMem (m : Memory) : FrameBut [] [.memory] s (advance (s.setMem m)) := by
  refine ⟨fun r _ => rfl, fun p hp => ?_, rfl, rfl⟩
  cases p <;> simp_all [Part.kept]

theorem frame_setMem_setI (m : Memory) (a : Word) :
    FrameBut [] [.memory, .index] s (advance ((s.setMem m).setI a)) := by
  refine ⟨fun r _ => rfl, fun p hp => ?_, rfl, rfl⟩
  cases p <;> simp_all [Part.kept]

theorem frame_setReg_setDraws (x : RegIdx) (b : Byte) (n : Nat) :
    FrameBut [x] [.drawCount] s (advance ((s.setReg x b).setDraws n)) := by
  refine ⟨fun r hr => ?_, fun p hp => ?_, rfl, rfl⟩
  · rw [advance_reg, setDraws_reg, reg_setReg_ne _ _ (by simpa using hr)]
  · cases p <;> simp_all [Part.kept]

theorem mem_destinations_loadRegs {x r : RegIdx} : r ∈ destinations (.loadRegs x) ↔ r.toNat ≤ x.toNat := by
  simp only [destinations, List.mem_map, List.mem_range]
  refine ⟨fun ⟨k, hk, hr⟩ => ?_, fun h => ⟨r.toNat, by omega, by simp⟩⟩
  have := x.isLt
  rw [← hr, BitVec.toNat_ofNat]
  omega

theorem frame_loadRegs (x : RegIdx) (a : Word) : FrameBut (destinations (.loadRegs x)) [.index] s
    (advance ((setRegsFrom 0 (bytesAtI s (x.toNat + 1)) s).setI a)) := by
  rw [FrameBut]
  refine ⟨fun r hr => ?_, fun p hp => ?_, ?_, ?_⟩
  · rw [advance_reg, setI_reg, reg_setRegsFrom_bytesAtI, if_neg (mt mem_destinations_loadRegs.mpr hr)]
  · rw [setRegsFrom_eq]
    cases p <;> simp_all [Part.kept, State.byte]
  · rw [setRegsFrom_eq]; rfl
  · rw [setRegsFrom_eq]; rfl

theorem exec_frame (h : exec i s = .next t) : FrameBut (destinations i) (partsWritten i) s t := by
  cases i with
  | call =>
    obtain hfault | ⟨_, rfl⟩ := exec_call_cases h
    · exact frame_takesFault hfault (by simp [partsWritten])
    · exact frame_mono (frame_setCallStack _ _ _) (fun _ => id) (by simp [partsWritten])
  | ret =>
    obtain hfault | ⟨_, _, rfl⟩ := exec_ret_cases h
    · exact frame_takesFault hfault (by simp [partsWritten])
    · exact frame_mono (frame_setCallStack _ _ _) (fun _ => id) (by simp [partsWritten])
  | drw x y n =>
    obtain hfault | ⟨_, rfl⟩ := exec_drw_cases h
    · exact frame_takesFault hfault (by simp [partsWritten])
    · exact frame_mono (frame_drawn x y n) (fun _ => id) (by simp [partsWritten])
  | ldB =>
    obtain hfault | ⟨_, rfl⟩ := exec_ldB_cases h
    · exact frame_takesFault hfault (by simp [partsWritten])
    · exact frame_mono (frame_setMem _) (fun _ => id) (by simp [partsWritten])
  | storeRegs =>
    obtain hfault | ⟨_, rfl⟩ := exec_storeRegs_cases h
    · exact frame_takesFault hfault (by simp [partsWritten])
    · exact frame_mono (frame_setMem_setI _ _) (fun _ => id) (by simp [partsWritten])
  | loadRegs x =>
    obtain hfault | ⟨_, rfl⟩ := exec_loadRegs_cases h
    · exact frame_takesFault hfault (by simp [partsWritten])
    · exact frame_mono (frame_loadRegs x _) (fun _ => id) (by simp [partsWritten])
  | ldVxK =>
    obtain ⟨-, rfl⟩ | ⟨_, -, rfl⟩ := exec_ldVxK_cases h
    · exact frame_refl
    · exact frame_setReg _ _
  | sys => obtain rfl := Host.Outcome.next.inj h; exact frame_setFault _
  | cls => obtain rfl := Host.Outcome.next.inj h; exact frame_setDisplay _ _
  | jp | jpV0 | seImm | sneImm | seReg | sneReg | skp | sknp =>
    obtain rfl := Host.Outcome.next.inj h
    exact frame_setPc _
  | ldImm | addImm | ldReg | orReg | andReg | xorReg | ldVxDt =>
    obtain rfl := Host.Outcome.next.inj h
    exact frame_setReg _ _
  | addReg | subReg | shr | subnReg | shl =>
    obtain rfl := Host.Outcome.next.inj h
    exact frame_writeWithFlag _ _ _
  | ldI | addI | ldF => obtain rfl := Host.Outcome.next.inj h; exact frame_setI _
  | rnd => obtain rfl := Host.Outcome.next.inj h; exact frame_setReg_setDraws _ _ _
  | ldDtVx => obtain rfl := Host.Outcome.next.inj h; exact frame_setDt _
  | ldStVx => obtain rfl := Host.Outcome.next.inj h; exact frame_setSt _

/-- The frame of one part. -/
theorem exec_keeps (p : Part) (h : exec i s = .next t) (hp : p ∉ partsWritten i) : p.kept s t := by
  obtain ⟨-, hparts, -⟩ := exec_frame h
  exact hparts p hp

/-- What memory is after an instruction: as before, or with the bytes an instruction stores from `I`. -/
theorem exec_mem_cases (h : exec i s = .next t) :
    t.mem = s.mem ∨ ∃ bs : List Byte, bs.length = accessLength i ∧ s.I.toNat + bs.length ≤ 4096 ∧
      t.mem = Memory.pokeBytes s.mem s.I.toNat bs := by
  cases i with
  | call => obtain ⟨_, -, rfl⟩ | ⟨_, rfl⟩ := exec_call_cases h <;> exact .inl rfl
  | ret => obtain ⟨_, -, rfl⟩ | ⟨_, _, rfl⟩ := exec_ret_cases h <;> exact .inl rfl
  | drw => obtain ⟨_, -, rfl⟩ | ⟨_, rfl⟩ := exec_drw_cases h <;> exact .inl rfl
  | loadRegs =>
    obtain ⟨_, -, rfl⟩ | ⟨_, rfl⟩ := exec_loadRegs_cases h
    · exact .inl rfl
    · rw [setRegsFrom_eq]; exact .inl rfl
  | ldVxK => obtain ⟨-, rfl⟩ | ⟨_, -, rfl⟩ := exec_ldVxK_cases h <;> exact .inl rfl
  | ldB x =>
    obtain ⟨_, -, rfl⟩ | ⟨hin, rfl⟩ := exec_ldB_cases h
    · exact .inl rfl
    · exact .inr ⟨bcdDigits (s.reg x), rfl, hin, rfl⟩
  | storeRegs x =>
    obtain ⟨_, -, rfl⟩ | ⟨hin, rfl⟩ := exec_storeRegs_cases h
    · exact .inl rfl
    · exact .inr ⟨_, regRange_length s x, by rwa [regRange_length], rfl⟩
  | _ => exact .inl (Host.Outcome.next.inj h ▸ rfl)

/-- What the call stack is after an instruction: as before, one entry more (CALL), or one in use less (RET). -/
theorem exec_callStack_cases (h : exec i s = .next t) :
    (t.sp = s.sp ∧ t.stack = s.stack) ∨
    (∃ hlt : s.sp.val < 16, t.sp.val = s.sp.val + 1 ∧ t.stack = s.stack.set s.sp.val (s.pc + 2#16) hlt) ∨
    (t.sp.val + 1 = s.sp.val ∧ t.stack = s.stack) := by
  cases i with
  | call =>
    obtain ⟨_, -, rfl⟩ | ⟨hlt, rfl⟩ := exec_call_cases h
    · exact .inl ⟨rfl, rfl⟩
    · exact .inr (.inl ⟨hlt, rfl, rfl⟩)
  | ret =>
    obtain ⟨_, -, rfl⟩ | ⟨k, hk, rfl⟩ := exec_ret_cases h
    · exact .inl ⟨rfl, rfl⟩
    · exact .inr (.inr ⟨hk, rfl⟩)
  | _ => exact .inl (exec_keeps .callStack h (by simp [partsWritten]))

/-- The cells after an instruction: as before, or those of the two display instructions. -/
theorem exec_screen_cases (h : exec i s = .next t) :
    t.fb = s.fb ∨ (i = .cls ∧ t.fb = blankFramebuffer) ∨ ∃ x y n, i = .drw x y n ∧ t = drawn x y n s := by
  cases i with
  | cls => exact .inr (.inl ⟨rfl, Host.Outcome.next.inj h ▸ rfl⟩)
  | drw x y n =>
    obtain ⟨_, -, rfl⟩ | ⟨_, ht⟩ := exec_drw_cases h
    · exact .inl rfl
    · exact .inr (.inr ⟨x, y, n, rfl, ht⟩)
  | _ => exact .inl (exec_keeps .screen h (by simp [partsWritten]))

/-- The fault latch after an instruction: as before, or holding the fault the instruction raised. -/
theorem exec_fault_cases (h : exec i s = .next t) : t.fault = s.fault ∨ TakesFault i s t := by
  cases i with
  | sys nnn => exact .inr ⟨_, .inl ⟨nnn, rfl, rfl⟩, (Host.Outcome.next.inj h).symm⟩
  | call => exact (exec_call_cases h).symm.imp_left fun ⟨_, ht⟩ => ht ▸ rfl
  | ret => exact (exec_ret_cases h).symm.imp_left fun ⟨_, _, ht⟩ => ht ▸ rfl
  | drw => exact (exec_drw_cases h).symm.imp_left fun ⟨_, ht⟩ => by rw [ht]; rfl
  | ldB => exact (exec_ldB_cases h).symm.imp_left fun ⟨_, ht⟩ => ht ▸ rfl
  | storeRegs => exact (exec_storeRegs_cases h).symm.imp_left fun ⟨_, ht⟩ => ht ▸ rfl
  | loadRegs => exact (exec_loadRegs_cases h).symm.imp_left fun ⟨_, ht⟩ => by rw [ht, setRegsFrom_eq]; rfl
  | _ => exact .inl (exec_keeps .faultLatch h (by simp [partsWritten]))

end Sys2Proof.Machine
end

section
/-! PROOF. One step (30_encoding.md R76; 60_exceptions.md R152, R160, R162, R170): which operation it performs, what the
executor's `Step` can answer, and the faults that can be latched. -/

namespace Sys2Proof.Machine

variable {s t : State}

/-! ### The step and its operation -/

theorem step_nil (h : s.schedule = []) : step s = executorStep s := by
  rw [step, h]
  rfl

theorem step_cons {op : Operation} {ops : List Operation} (h : s.schedule = op :: ops) :
    step s = perform op (s.setSchedule ops) := by
  rw [step, h]

/-- Settles O9: with the step's two cases the rest is the list of `perform`. -/
theorem scheduledOperationIsPerformed : Obligations.ScheduledOperationIsPerformed := fun _ =>
  ⟨step_nil, fun _ _ => step_cons, rfl, rfl, rfl, fun _ => rfl, rfl, rfl, fun _ _ => rfl⟩

/-- Settles O54: the loader's test is the one branch of PowerOn that stops. -/
theorem oversizedImageIsRefused : Obligations.OversizedImageIsRefused := by
  intro params image s
  change powerOn params image s = _ ↔ _
  unfold powerOn
  split
  case isTrue hfits => exact iff_of_false (by simp) (Nat.not_lt.mpr hfits)
  case isFalse hlong => exact iff_of_true rfl (Nat.lt_of_not_le hlong)

/-- An operation answers a next state, or it is PowerOn of an image that is too long. -/
theorem perform_answers (op : Operation) (s : State) : (∃ t, perform op s = .next t) ∨
    ∃ params image, op = .powerOn params image ∧ 3584 < image.length := by
  cases op with
  | step => exact .inl (executorStep_answers s)
  | tick | keyClearAll | keySet | takeFrame | reset => exact .inl ⟨_, rfl⟩
  | powerOn params image =>
    by_cases hfits : image.length ≤ Config.progMax
    · exact .inl ⟨_, if_pos hfits⟩
    · exact .inr ⟨params, image, rfl, Nat.lt_of_not_le hfits⟩

/-- Settles O7: the executor always answers, and of the scheduled operations only an oversized PowerOn does not. -/
theorem onlyAnOversizedImageStopsTheModel : Obligations.OnlyAnOversizedImageStopsTheModel := by
  intro s
  obtain ⟨-, hs⟩ | ⟨op, ops, hops, hs⟩ := step_cases s
  · exact .inl (hs ▸ executorStep_answers s)
  · obtain hnext | ⟨params, image, rfl, hlong⟩ := perform_answers op (s.setSchedule ops)
    · exact .inl (hs ▸ hnext)
    · exact .inr ⟨params, image, ops, hops, hlong, hs ▸ (oversizedImageIsRefused params image _).mpr hlong⟩

/-! ### The executor -/

theorem executorStep_halted (h : s.fault ≠ none) : executorStep s = .next s := by
  obtain ⟨-, hs⟩ | ⟨hf, -⟩ | ⟨hf, -⟩ := executorStep_cases s
  · exact hs
  · exact absurd hf h
  · exact absurd hf h

theorem executorStep_outside (hf : s.fault = none) (hpc : 0xFFF ≤ s.pc.toNat) :
    executorStep s = .next (s.setFault (some (.memoryFault (max s.pc.toNat 0x1000)))) := by
  rw [executorStep, hf, fetch_error hpc]
  rfl

theorem executorStep_inside (hf : s.fault = none) (hpc : s.pc.toNat < 0xFFF) :
    executorStep s = executeWord (wordAtPc s) s := by
  rw [executorStep, hf, fetch_ok hpc]
  rfl

theorem executeWord_ok {w : Word} {i : Instr} (h : decodeWord w = .ok i) : executeWord w s = exec i s := by
  rw [executeWord, h]

theorem executeWord_error {w : Word} {e : DecodeError} (h : decodeWord w = .error e) :
    executeWord w s = .next (s.setFault (some (.unknownOpcode w))) := by
  rw [executeWord, h]
  rfl

/-- Settles O8: inside memory and not halted the step dispatches the decoded word. -/
theorem stepRunsTheDecodedInstruction : Obligations.StepRunsTheDecodedInstruction := by
  intro s i hf hpc hdec
  refine ⟨fun h => ?_, fun ops h => ?_⟩
  · rw [step_nil h, executorStep_inside hf hpc, executeWord_ok hdec]
  · rw [step_cons h]
    exact (executorStep_inside (s := s.setSchedule ops) hf hpc).trans (executeWord_ok hdec)

/-- Settles O10: the fetch faults before anything is decoded. -/
theorem fetchOutsideMemoryFaults : Obligations.FetchOutsideMemoryFaults := by
  intro s hf hpc
  refine ⟨_, executorStep_outside hf hpc, ?_, rfl, frame_setFault _⟩
  rw [setFault_fault]
  split <;> congr <;> omega

/-- Settles O11: what decodes to no instruction is rejected, and the rejection is the fault. -/
theorem unknownWordTakesItsFault : Obligations.UnknownWordTakesItsFault := by
  intro s hf hpc hno
  cases hdec : decodeWord (wordAtPc s) with
  | ok i => exact absurd hdec (hno i)
  | error e => exact ⟨_, (executorStep_inside hf hpc).trans (executeWord_error hdec), rfl, rfl, frame_setFault _⟩

/-- Settles O56: the jump's target is the pc it is executed at. -/
theorem idleSelfJumpChangesNothing : Obligations.IdleSelfJumpChangesNothing := by
  intro s nnn hf hsched hpc htarget hword
  have hdec : decodeWord (wordAtPc s) = .ok (.jp nnn) := hword ▸ decodeInvertsEncode (.jp nnn) rfl
  have hsame : addrOperand nnn = s.pc := BitVec.eq_of_toNat_eq ((addrOperand_toNat nnn).trans htarget.symm)
  rw [step_nil hsched, executorStep_inside hf hpc, executeWord_ok hdec, exec, execJp, hsame]
  rfl

/-! ### The faults -/

/-- All that a `Step` of a running machine can answer: the fetch's fault, an unknown word's, or the instruction's next
state. -/
theorem executorStep_next_cases (hf : s.fault = none) (h : executorStep s = .next t) :
    (0xFFF ≤ s.pc.toNat ∧ t = s.setFault (some (.memoryFault (max s.pc.toNat 0x1000)))) ∨
    (s.pc.toNat < 0xFFF ∧ decodeWord (wordAtPc s) = .error (.unknownOpcode (wordAtPc s)) ∧
      t = s.setFault (some (.unknownOpcode (wordAtPc s)))) ∨
    (s.pc.toNat < 0xFFF ∧ ∃ i, decodeWord (wordAtPc s) = .ok i ∧ exec i s = .next t) := by
  by_cases hpc : s.pc.toNat < 0xFFF
  · rw [executorStep_inside hf hpc] at h
    cases hdec : decodeWord (wordAtPc s) with
    | ok i => exact .inr (.inr ⟨hpc, i, rfl, executeWord_ok hdec ▸ h⟩)
    | error e =>
      rw [executeWord_error hdec] at h
      exact .inr (.inl ⟨hpc, by rw [decodeWord_error_word hdec], (Host.Outcome.next.inj h).symm⟩)
  · have hpc := Nat.le_of_not_lt hpc
    rw [executorStep_outside hf hpc] at h
    exact .inl ⟨hpc, (Host.Outcome.next.inj h).symm⟩

/-- Settles O13: whatever raises, the fault is taken in the state before the step. -/
theorem faultingStepChangesOnlyFault : Obligations.FaultingStepChangesOnlyFault := by
  intro s t hf h ht
  obtain ⟨-, rfl⟩ | ⟨-, -, rfl⟩ | ⟨-, i, -, hexec⟩ := executorStep_next_cases hf h
  · rfl
  · rfl
  · obtain hkept | ⟨f, -, rfl⟩ := exec_fault_cases hexec
    · exact absurd (hkept.trans hf) ht
    · rfl

/-- No operation but `Step` latches a fault. -/
theorem perform_fault_cases {op : Operation} (hop : op ≠ .step) (h : perform op s = .next t) :
    t.fault = s.fault ∨ t.fault = none := by
  cases op with
  | step => exact absurd rfl hop
  | tick =>
    obtain rfl := Host.Outcome.next.inj h
    refine .inl ?_
    rw [tick_fst, tickState]
    split <;> rfl
  | keyClearAll | keySet | takeFrame => exact .inl (Host.Outcome.next.inj h ▸ rfl)
  | reset => exact .inr (Host.Outcome.next.inj h ▸ hostReset_fault s)
  | powerOn => exact .inr (powerOn_next h ▸ rfl)

/-- Settles O14: the sources are the three cases of a `Step`, and an instruction's are those it raises. -/
theorem faultsComeOnlyFromTheListedSources : Obligations.FaultsComeOnlyFromTheListedSources := by
  refine ⟨fun s t f hf h ht => ?_, fun op s t => perform_fault_cases⟩
  obtain ⟨hpc, rfl⟩ | ⟨hpc, hdec, rfl⟩ | ⟨hpc, i, hdec, hexec⟩ := executorStep_next_cases hf h
  · exact .inl ⟨hpc, _, by omega, (Option.some.inj ht).symm⟩
  · exact .inr (.inl ⟨hpc, hdec, (Option.some.inj ht).symm⟩)
  · refine .inr (.inr ⟨hpc, i, hdec, ?_⟩)
    obtain hkept | ⟨g, hraises, rfl⟩ := exec_fault_cases hexec
    · cases ht.symm.trans (hkept.trans hf)
    obtain rfl := Option.some.inj ht
    obtain ⟨nnn, hi, rfl⟩ | hcall | hret | ⟨hpos, hout, rfl⟩ := hraises
    · exact .inl ⟨nnn, hi, by rw [(encodeInvertsDecode _ i hdec).1]⟩
    · exact .inr (.inl hcall)
    · exact .inr (.inr (.inl hret))
    · exact .inr (.inr (.inr ⟨hpos, by omega, _, by split <;> omega, rfl⟩))

/-- Settles O57: the outputs are read off the latch, record by record. -/
theorem faultOutputsShowTheLatch : Obligations.FaultOutputsShowTheLatch := by
  intro s
  refine ⟨?_, ?_, ?_, ?_, ?_, ?_⟩ <;> intros <;> simp [faultCode, faultInfo, *]

end Sys2Proof.Machine
end

section
/-! PROOF. The invariant (10_state.md, 60_exceptions.md R152): it holds after reset and every operation keeps it. -/

namespace Sys2Proof.Machine

variable {s t : State} {i : Instr}

/-! ### The bound on pc -/

theorem regOperand16_toNat (s : State) (r : RegIdx) : (regOperand16 s r).toNat = (s.reg r).toNat :=
  BitVec.toNat_setWidth_of_le (by decide)

/-- `JP V0` neither masks nor wraps (R122): the sum fits in the width of pc. -/
theorem indirectTarget_toNat (nnn : Addr12) (s : State) (r : RegIdx) :
    (addrOperand nnn + regOperand16 s r).toNat = nnn.toNat + (s.reg r).toNat := by
  have hn := nnn.isLt
  have hv := (s.reg r).isLt
  rw [BitVec.toNat_add_of_lt, addrOperand_toNat, regOperand16_toNat]
  rw [addrOperand_toNat, regOperand16_toNat]
  omega

/-- Where pc goes: by at most two instructions, to an address of an operand, or to an entry in use. -/
theorem exec_pc_cases (h : exec i s = .next t) :
    (∃ d : Word, d.toNat ≤ 4 ∧ t.pc = s.pc + d) ∨ t.pc.toNat ≤ 0x10FE ∨
      ∃ k : Fin 16, k.val < s.sp.val ∧ t.pc = s.entry k := by
  cases i with
  | jp nnn =>
    obtain rfl := Host.Outcome.next.inj h
    have := nnn.isLt
    exact .inr (.inl (by rw [setPc_pc, addrOperand_toNat]; omega))
  | jpV0 nnn =>
    obtain rfl := Host.Outcome.next.inj h
    have hn := nnn.isLt
    have hv := (s.reg 0x0#4).isLt
    exact .inr (.inl (by rw [setPc_pc, indirectTarget_toNat]; omega))
  | call nnn =>
    obtain ⟨_, -, rfl⟩ | ⟨_, rfl⟩ := exec_call_cases h
    · exact .inl ⟨0#16, by simp, by simp⟩
    · have := nnn.isLt
      exact .inr (.inl (by rw [setPc_pc, addrOperand_toNat]; omega))
  | ret =>
    obtain ⟨_, -, rfl⟩ | ⟨k, hk, rfl⟩ := exec_ret_cases h
    · exact .inl ⟨0#16, by simp, by simp⟩
    · exact .inr (.inr ⟨k, by omega, rfl⟩)
  | ldVxK =>
    obtain ⟨-, rfl⟩ | ⟨_, -, rfl⟩ := exec_ldVxK_cases h
    · exact .inl ⟨0#16, by simp, by simp⟩
    · exact .inl ⟨2#16, by simp, rfl⟩
  | seImm | sneImm | seReg | sneReg | skp | sknp =>
    obtain rfl := Host.Outcome.next.inj h
    refine .inl ?_
    rw [skipIf_pc]
    split
    · exact ⟨4#16, by simp, rfl⟩
    · exact ⟨2#16, by simp, rfl⟩
  | _ =>
    obtain ⟨_, rfl⟩ | ⟨u, rfl, hu⟩ := exec_genericAdvance_cases rfl h
    · exact .inl ⟨0#16, by simp, by simp⟩
    · exact .inl ⟨2#16, by simp, by rw [advance_pc, hu]⟩

/-! ### Preservation, field by field -/

theorem exec_keeps_pcBound (hs : Inv s) (hpc : s.pc.toNat < 0xFFF) (h : exec i s = .next t) : t.pc.toNat ≤ 0x10FE := by
  obtain ⟨d, hd, ht⟩ | ht | ⟨k, hk, ht⟩ := exec_pc_cases h
  · rw [ht, BitVec.toNat_add]
    omega
  · exact ht
  · rw [ht]
    have := hs.returns k hk
    omega

theorem exec_keeps_wf (hs : Memory.wf s.mem = true) (h : exec i s = .next t) : Memory.wf t.mem = true := by
  obtain ht | ⟨bs, -, hin, ht⟩ := exec_mem_cases h
  · rwa [ht]
  · rw [ht]
    exact wf_pokeBytes hs bs hin

theorem exec_keeps_returns (hs : Inv s) (hpc : s.pc.toNat < 0xFFF) (h : exec i s = .next t) (k : Fin 16)
    (hk : k.val < t.sp.val) : (t.entry k).toNat ≤ 0x1000 := by
  obtain ⟨hsp, hst⟩ | ⟨hlt, hsp, hst⟩ | ⟨hsp, hst⟩ := exec_callStack_cases h
  · rw [State.entry, hst]
    exact hs.returns k (hsp ▸ hk)
  · have hentry : t.entry k = if k.val = s.sp.val then s.pc + 2#16 else s.entry k := by
      rw [State.entry, hst]
      exact entry_push hlt _ s.sp k
    rw [hentry]
    split
    · rw [BitVec.toNat_add, BitVec.toNat_ofNat]
      omega
    · exact hs.returns k (by omega)
  · rw [State.entry, hst]
    exact hs.returns k (by omega)

/-- A fault raised by the instruction of the decoded word has a legal record. -/
theorem faultLegal_of_raises {w : Word} {f : FaultRecord} (hdec : decodeWord w = .ok i) (h : Raises i s f) :
    FaultLegal (s.setFault (some f)) := by
  obtain ⟨nnn, rfl, rfl⟩ | ⟨_, -, hfull, rfl⟩ | ⟨-, hempty, rfl⟩ | ⟨-, -, rfl⟩ := h
  · exact ⟨nnn, by rw [(encodeInvertsDecode w _ hdec).1, hdec]⟩
  · exact hfull
  · exact hempty
  · have := s.I.isLt
    change 0xFFF < _ ∧ _ < 2 ^ 17
    split <;> omega

theorem inv_setFault {f : FaultRecord} (hs : Inv s) (hf : FaultLegal (s.setFault (some f))) :
    Inv (s.setFault (some f)) := ⟨hs.memory, hs.pc, hs.returns, hf⟩

theorem exec_keeps_inv {w : Word} (hs : Inv s) (hf : s.fault = none) (hpc : s.pc.toNat < 0xFFF)
    (hdec : decodeWord w = .ok i) (h : exec i s = .next t) : Inv t := by
  obtain hkept | ⟨f, hraises, rfl⟩ := exec_fault_cases h
  · exact ⟨exec_keeps_wf hs.memory h, exec_keeps_pcBound hs hpc h, exec_keeps_returns hs hpc h,
      by rw [FaultLegal, hkept, hf]; trivial⟩
  · exact inv_setFault hs (faultLegal_of_raises hdec hraises)

theorem executorStep_keeps_inv (hs : Inv s) (h : executorStep s = .next t) : Inv t := by
  by_cases hf : s.fault = none
  · obtain ⟨-, rfl⟩ | ⟨-, hdec, rfl⟩ | ⟨hpc, i, hdec, hexec⟩ := executorStep_next_cases hf h
    · have := hs.pc
      exact inv_setFault hs (show 0xFFF < _ ∧ _ < 2 ^ 17 by omega)
    · exact inv_setFault hs hdec
    · exact exec_keeps_inv hs hf hpc hdec hexec
  · rw [executorStep_halted hf] at h
    exact Host.Outcome.next.inj h ▸ hs

/-! ### Every operation -/

/-- A state with the memory canonical and everything else as PowerOn and Reset rewind it. -/
theorem inv_of_rewound (hm : Memory.wf t.mem = true) (hpc : t.pc = 0x0200#16) (hsp : t.sp = 0)
    (hf : t.fault = none) : Inv t where
  memory := hm
  pc := by rw [hpc]; decide
  returns k hk := by rw [hsp] at hk; exact absurd hk (Nat.not_lt_zero _)
  fault := by rw [FaultLegal, hf]; trivial

theorem wf_poweredOn (params : Params) {image : List Byte} (s : State) (h : image.length ≤ 3584) :
    Memory.wf (poweredOn params image s).mem = true := by
  rw [poweredOn_mem]
  exact wf_pokeBytes (wf_pokeBytes_glyphs _ wf_nil) _ (by simp only [Config.progBase, memSize_eq]; omega)

/-- Ticks, key and frame operations write only what the invariant does not speak of. -/
theorem inv_congr (hs : Inv s) (hm : t.mem = s.mem) (hpc : t.pc = s.pc) (hsp : t.sp = s.sp) (hst : t.stack = s.stack)
    (hf : t.fault = s.fault) : Inv t where
  memory := hm ▸ hs.memory
  pc := hpc ▸ hs.pc
  returns k hk := by rw [State.entry, hst]; exact hs.returns k (hsp ▸ hk)
  fault := by
    have := hs.fault
    rwa [FaultLegal, ← hf, ← hsp, ← FaultLegal] at this

theorem tickState_keeps_inv (hs : Inv s) : Inv (tickState s) := by
  unfold tickState
  split
  · exact hs
  · exact inv_congr hs rfl rfl rfl rfl rfl

theorem perform_keeps_inv {op : Operation} (hs : Inv s) (h : perform op s = .next t) : Inv t := by
  cases op with
  | step => exact executorStep_keeps_inv hs h
  | tick => exact Host.Outcome.next.inj h ▸ tickState_keeps_inv hs
  | keyClearAll | keySet | takeFrame =>
    obtain rfl := Host.Outcome.next.inj h
    exact inv_congr hs rfl rfl rfl rfl rfl
  | reset =>
    obtain rfl := Host.Outcome.next.inj h
    exact inv_of_rewound (hostReset_mem s ▸ wf_pokeBytes_glyphs _ hs.memory) (hostReset_pc s) (hostReset_sp s)
      (hostReset_fault s)
  | powerOn params image =>
    have hfits : image.length ≤ 3584 := by
      by_contra hlong
      rw [(oversizedImageIsRefused params image s).mpr (Nat.lt_of_not_le hlong)] at h
      cases h
    obtain rfl := powerOn_next h
    exact inv_of_rewound (wf_poweredOn params s hfits) rfl rfl rfl

/-- Settles O5: the operation taken off the schedule keeps the invariant, which does not speak of the schedule. -/
theorem everyStepKeepsTheInvariant : Obligations.EveryStepKeepsTheInvariant := by
  intro s t hs h
  obtain ⟨-, hstep⟩ | ⟨op, ops, -, hstep⟩ := step_cases s
  · exact perform_keeps_inv hs (hstep ▸ h)
  · exact perform_keeps_inv (s := s.setSchedule ops) (inv_congr hs rfl rfl rfl rfl rfl) (hstep ▸ h)

/-- Settles O6: nothing is listed in memory, and the rest is what PowerOn leaves. -/
theorem resetStateSatisfiesTheInvariant : Obligations.ResetStateSatisfiesTheInvariant :=
  inv_of_rewound wf_nil rfl rfl rfl

end Sys2Proof.Machine
end

section
/-! PROOF. Drawing (43_display.md R127, R128), and what every instruction leaves unchanged: its frame, the latch and the
counters, and that the sound timer is not read. -/

namespace Sys2Proof.Machine

variable {s t : State} {i : Instr} {x y : RegIdx} {n : Nibble}

/-! ### The drawing of `DRW` -/

theorem bytesAtI_getD (s : State) {n k : Nat} (h : k < n) : (bytesAtI s n).getD k 0 = s.byte (s.I.toNat + k) := by
  simp [bytesAtI, h]

@[simp] theorem bytesAtI_length (s : State) (n : Nat) : (bytesAtI s n).length = n := by simp [bytesAtI]

/-- The cells that drawing the bytes at `I` touches are those the sprite covers. -/
theorem touches_iff_spriteCovers (s : State) (x0 y0 n : Nat) (px : Fin 64) (py : Fin 32) :
    touches x0 y0 (bytesAtI s n) px py = true ↔ SpriteCovers s x0 y0 n px py := by
  simp only [touches, spriteBit, bytesAtI_length, Bool.and_eq_true, decide_eq_true_eq]
  constructor
  · rintro ⟨⟨hy, hyn⟩, ⟨hx, hx8⟩, hbit⟩
    rw [bytesAtI_getD s (by omega)] at hbit
    exact ⟨py.val - y0, px.val - x0, by omega, by omega, by omega, by omega, hbit⟩
  · rintro ⟨r, c, hr, hc, hy, hx, hbit⟩
    rw [show py.val - y0 = r by omega, show px.val - x0 = c by omega, bytesAtI_getD s hr]
    exact ⟨⟨by omega, by omega⟩, ⟨by omega, by omega⟩, hbit⟩

/-- The cells `DRW Vx, Vy, N` covers in a state: the sprite at `I` from the start position modulo the grid. -/
def Covers (x y : RegIdx) (n : Nibble) (s : State) (px : Fin 64) (py : Fin 32) : Prop :=
  SpriteCovers s ((s.reg x).toNat % 64) ((s.reg y).toNat % 32) n.toNat px py

theorem cell_drawn_covered {px : Fin 64} {py : Fin 32} (h : Covers x y n s px py) :
    cell (drawn x y n s).fb px py = !cell s.fb px py := by
  refine ((blitRows_spec _ _ _ _).1 px py).trans ?_
  rw [(touches_iff_spriteCovers s _ _ _ px py).mpr h, Bool.xor_true]

theorem cell_drawn_not_covered {px : Fin 64} {py : Fin 32} (h : ¬ Covers x y n s px py) :
    cell (drawn x y n s).fb px py = cell s.fb px py := by
  refine ((blitRows_spec _ _ _ _).1 px py).trans ?_
  rw [Bool.eq_false_iff.mpr (mt (touches_iff_spriteCovers s _ _ _ px py).mp h), Bool.xor_false]

theorem drawn_dirty : (drawn x y n s).dirty = true ↔ s.dirty = true ∨ ∃ px py, Covers x y n s px py := by
  change (s.dirty || _) = true ↔ _
  rw [Bool.or_eq_true, blit, (blitRows_spec _ _ _ _).2.1]
  simp only [Bool.false_eq_true, false_or, touches_iff_spriteCovers, Covers]

/-- The collision bit in VF: whether a covered cell was set. -/
theorem drawn_vf (b : Bool) (h : b = true ↔ ∃ px py, Covers x y n s px py ∧ cell s.fb px py = true) :
    (drawn x y n s).reg VF = flagByte b := by
  change (State.setReg _ VF _).reg VF = _
  rw [reg_setReg_same]
  congr 1
  rw [Bool.eq_iff_iff, h, blit, (blitRows_spec _ _ _ _).2.2]
  simp only [Bool.false_eq_true, false_or, touches_iff_spriteCovers, Covers]

/-- Settles O35: the completed drawing, cell by cell and bit by bit. -/
theorem drawFlipsTheCoveredCells : Obligations.DrawFlipsTheCoveredCells := by
  intro x y n s hin
  have hin : n.toNat = 0 ∨ s.I.toNat + n.toNat ≤ 4096 := hin.imp_left (by rintro rfl; rfl)
  refine ⟨drawn x y n s, exec_drw_ok x y n hin, fun px py => ⟨cell_drawn_covered, cell_drawn_not_covered⟩,
    fun hset => drawn_vf true (iff_of_true rfl hset), fun hset => drawn_vf false (iff_of_false (by simp) hset),
    fun hcov => drawn_dirty.mpr (.inr hcov), fun hcov => ?_, rfl, frame_drawn x y n⟩
  rw [Bool.eq_iff_iff, drawn_dirty]
  exact or_iff_left hcov

/-- The first draw leaves the sprite and, outside VF, the start position as they were. -/
theorem covers_drawn (hx : x ≠ VF) (hy : y ≠ VF) (px : Fin 64) (py : Fin 32) :
    Covers x y n (drawn x y n s) px py ↔ Covers x y n s px py := by
  obtain ⟨hregs, -⟩ := frame_drawn (s := s) x y n
  unfold Covers
  rw [hregs x (by simpa using hx), hregs y (by simpa using hy)]
  rfl

/-- Settles O36: both draws flip the same cells. -/
theorem drawingTwiceRestoresTheScreen : Obligations.DrawingTwiceRestoresTheScreen := by
  intro x y n s t u hx hy hst ht htu
  obtain ⟨f, -, rfl⟩ | ⟨hin, rfl⟩ := exec_drw_cases hst
  · cases ht
  obtain rfl : drawn x y n (drawn x y n s) = u :=
    Host.Outcome.next.inj ((exec_drw_ok x y n (s := drawn x y n s) hin).symm.trans htu)
  refine ⟨fun px py => ?_, fun ⟨px, py, hcov, hset⟩ =>
    drawn_vf true (iff_of_true rfl ⟨px, py, (covers_drawn hx hy px py).mpr hcov, hset⟩)⟩
  have hcov := covers_drawn (n := n) (s := s) hx hy px py
  by_cases h : Covers x y n s px py
  · rw [cell_drawn_covered (hcov.mpr h), cell_drawn_covered h, Bool.not_not]
  · rw [cell_drawn_not_covered (mt hcov.mp h), cell_drawn_not_covered h]

end Sys2Proof.Machine
end

section
/-! PROOF. What every instruction leaves unchanged (R22, R31, R34, R40, R42, R55): its frame, the key latch and the
counters; and that no instruction reads the sound timer. -/

namespace Sys2Proof.Machine

variable {s t : State} {i : Instr}

/-! ### The frame -/

/-- An instruction stores nowhere but at the addresses from `I` that it accesses. -/
theorem exec_byte_outside (h : exec i s = .next t) {a : Nat} (ha : a < s.I.toNat ∨ s.I.toNat + accessLength i ≤ a) :
    t.byte a = s.byte a := by
  obtain hkept | ⟨bs, hlen, -, ht⟩ := exec_mem_cases h
  · rw [State.byte, hkept, State.byte]
  · rw [State.byte, ht, peek_pokeBytes_outside _ _ (hlen.symm ▸ ha), State.byte]

/-- A call writes the first free entry, a return none (R32). -/
theorem exec_entry (h : exec i s = .next t) {k : Fin 16} (hk : k.val ≠ s.sp.val) : t.entry k = s.entry k := by
  obtain ⟨-, ht⟩ | ⟨hlt, -, ht⟩ | ⟨-, ht⟩ := exec_callStack_cases h
  · rw [State.entry, ht, State.entry]
  · rw [State.entry, ht, ← setCallStack_entry s s.sp, entry_push hlt, if_neg hk]
  · rw [State.entry, ht, State.entry]

/-- Settles O15: the frame part by part, then memory, stack and cells address by address. -/
theorem everyInstructionKeepsItsFrame : Obligations.EveryInstructionKeepsItsFrame := by
  refine fun i s t h => ⟨exec_frame h, fun a => exec_byte_outside h, fun k => exec_entry h, fun hcls px py hcov => ?_⟩
  obtain hkept | ⟨hi, -⟩ | ⟨x, y, n, hi, rfl⟩ := exec_screen_cases h
  · rw [hkept]
  · exact absurd hi hcls
  · exact cell_drawn_not_covered (hcov x y n hi)

/-! ### The latch and the counters -/

theorem exec_dirty (h : exec i s = .next t) (hd : s.dirty = true) : t.dirty = true := by
  cases i with
  | cls => exact Host.Outcome.next.inj h ▸ rfl
  | drw =>
    obtain ⟨_, -, rfl⟩ | ⟨-, rfl⟩ := exec_drw_cases h
    · exact hd
    · exact drawn_dirty.mpr (.inl hd)
  | _ => exact (exec_keeps .dirtyFlag h (by simp [partsWritten])).trans hd

theorem exec_dt_cases (h : exec i s = .next t) : t.dt = s.dt ∨ ∃ x, i = .ldDtVx x ∧ t.dt = s.reg x := by
  cases i with
  | ldDtVx x => exact .inr ⟨x, rfl, Host.Outcome.next.inj h ▸ rfl⟩
  | _ => exact .inl (exec_keeps .delayTimer h (by simp [partsWritten]))

theorem exec_st_cases (h : exec i s = .next t) : t.st = s.st ∨ ∃ x, i = .ldStVx x ∧ t.st = s.reg x := by
  cases i with
  | ldStVx x => exact .inr ⟨x, rfl, Host.Outcome.next.inj h ▸ rfl⟩
  | _ => exact .inl (exec_keeps .soundTimer h (by simp [partsWritten]))

/-- Settles O17: a halted or faulting step keeps all four, and an instruction writes them as its own rule says. -/
theorem stepLeavesLatchAndTimers : Obligations.StepLeavesLatchAndTimers := by
  refine fun s t h => ⟨executorStep_keys h, ?_⟩
  by_cases hf : s.fault = none
  · obtain ⟨-, rfl⟩ | ⟨-, -, rfl⟩ | ⟨-, i, hdec, hexec⟩ := executorStep_next_cases hf h
    · exact ⟨id, .inl rfl, .inl rfl⟩
    · exact ⟨id, .inl rfl, .inl rfl⟩
    · exact ⟨exec_dirty hexec, (exec_dt_cases hexec).imp_right fun ⟨x, hi, ht⟩ => ⟨x, hi ▸ hdec, ht⟩,
        (exec_st_cases hexec).imp_right fun ⟨x, hi, ht⟩ => ⟨x, hi ▸ hdec, ht⟩⟩
  · obtain rfl := Host.Outcome.next.inj ((executorStep_halted hf).symm.trans h)
    exact ⟨id, .inl rfl, .inl rfl⟩

/-! ### The sound timer -/

variable (b : Byte)

theorem exec_setSt_of_takesFault (h : TakesFault i s t) : exec i (s.setSt b) = .next (t.setSt b) := by
  obtain ⟨f, hraises, rfl⟩ := h
  exact exec_of_raises (s := s.setSt b) hraises

theorem setRegsFrom_setSt (k : Nat) (bs : List Byte) (s : State) :
    setRegsFrom k bs (s.setSt b) = (setRegsFrom k bs s).setSt b := by
  induction bs generalizing k s with
  | nil => rfl
  | cons v bs ih => exact ih (k + 1) (s.setReg (BitVec.ofNat 4 k) v)

/-- Settles O18: ST is no operand of a meaning and of no test that raises a fault. -/
theorem soundTimerIsNeverRead : Obligations.SoundTimerIsNeverRead := by
  intro i s t b hi h
  cases i with
  | ldStVx x => exact absurd rfl (hi x)
  | call nnn =>
    obtain hfault | ⟨hlt, rfl⟩ := exec_call_cases h
    · exact exec_setSt_of_takesFault b hfault
    · exact exec_call_ok (s := s.setSt b) nnn hlt
  | ret =>
    obtain hfault | ⟨k, hk, rfl⟩ := exec_ret_cases h
    · exact exec_setSt_of_takesFault b hfault
    · exact exec_ret_pop (s := s.setSt b) hk
  | drw x y n =>
    obtain hfault | ⟨hin, rfl⟩ := exec_drw_cases h
    · exact exec_setSt_of_takesFault b hfault
    · exact exec_drw_ok (s := s.setSt b) x y n hin
  | ldB x =>
    obtain hfault | ⟨hin, rfl⟩ := exec_ldB_cases h
    · exact exec_setSt_of_takesFault b hfault
    · exact exec_ldB_ok (s := s.setSt b) x hin
  | storeRegs x =>
    obtain hfault | ⟨hin, rfl⟩ := exec_storeRegs_cases h
    · exact exec_setSt_of_takesFault b hfault
    · exact exec_storeRegs_ok (s := s.setSt b) x hin
  | loadRegs x =>
    obtain hfault | ⟨hin, rfl⟩ := exec_loadRegs_cases h
    · exact exec_setSt_of_takesFault b hfault
    · rw [exec_loadRegs_ok (s := s.setSt b) x hin, setRegsFrom_setSt]
      rfl
  | ldVxK =>
    obtain ⟨hk, rfl⟩ | ⟨k, hk, rfl⟩ := exec_ldVxK_cases h
    · exact exec_ldVxK_none hk
    · exact exec_ldVxK_some hk
  | _ => exact Host.Outcome.next.inj h ▸ rfl

end Sys2Proof.Machine
end

section
/-! PROOF. Memory and its transfers (20_memory.md R51, R55, R56, R64; 45_memory_transfer.md R142 to R146): the byte at
every address after a store, the registers after a load, and what follows for round trips and for a later fetch. -/

namespace Sys2Proof.Machine

variable {s t : State} {i : Instr} {x : RegIdx}

/-! ### One byte -/

/-- Settles O47: the bounds check, and what `poke` does to a read at its own and at another address. -/
theorem memoryReadsWhatWasWritten : Obligations.MemoryReadsWhatWasWritten := by
  refine fun m a v hm => ⟨fun ha => ?_, fun ha => ?_⟩
  · have hlt : a < Config.memSize := by rw [memSize_eq]; omega
    refine ⟨Memory.poke m a v, if_pos hlt, ?_, wf_poke hm hlt v, fun b hb => ?_⟩
    · rw [memRead, if_pos hlt, peek_poke_same hm]
    · rw [memRead, peek_poke_ne m v hb, memRead]
  · have hge : ¬ a < Config.memSize := by rw [memSize_eq]; omega
    exact ⟨if_neg hge, if_neg hge⟩

/-! ### The bytes a store leaves -/

/-- Every address after a sequence of writes inside memory. -/
theorem peek_pokeBytes {m : Memory} (hm : Memory.wf m = true) {a : Nat} (vs : List Byte) (ha : a + vs.length ≤ 4096)
    (b : Nat) : Memory.peek (Memory.pokeBytes m a vs) b =
      if h : a ≤ b ∧ b < a + vs.length then vs[b - a]'(by omega) else Memory.peek m b := by
  split
  case isTrue h =>
    rw [← peek_pokeBytes_inside hm vs ha (by omega : b - a < vs.length), Nat.add_sub_cancel' h.1]
  case isFalse h => exact peek_pokeBytes_outside m vs (by omega)

/-- The digit of `10^(2-k)` is the `k`-th byte FX33 stores (R142). -/
theorem bcdDigits_getElem (v : Byte) {k : Nat} (h : k < (bcdDigits v).length) :
    (bcdDigits v)[k] = BitVec.ofNat 8 (v.toNat / 10 ^ (2 - k) % 10) := by
  have hv := v.isLt
  refine BitVec.eq_of_toNat_eq ?_
  match k with
  | 0 | 1 | 2 =>
    simp [bcdDigits]
    omega

/-- The byte at every address after an instruction that runs inside memory. -/
theorem exec_byteAfter (hm : Memory.wf s.mem = true) (hin : accessLength i = 0 ∨ s.I.toNat + accessLength i ≤ 0x1000)
    (h : exec i s = .next t) (a : Nat) : t.byte a = byteAfter i s a := by
  cases i with
  | ldB x =>
    have hin : s.I.toNat + 3 ≤ 4096 := hin.resolve_left (by simp [accessLength])
    obtain rfl := Host.Outcome.next.inj ((exec_ldB_ok x hin).symm.trans h)
    refine (peek_pokeBytes hm (bcdDigits (s.reg x)) hin a).trans ?_
    simp only [bcdDigits_getElem]
    rfl
  | storeRegs x =>
    have hin : s.I.toNat + (x.toNat + 1) ≤ 4096 := hin.resolve_left (by simp [accessLength])
    obtain rfl := Host.Outcome.next.inj ((exec_storeRegs_ok x hin).symm.trans h)
    refine (peek_pokeBytes hm (regRange s x) (by rwa [regRange_length]) a).trans ?_
    simp only [regRange_getElem, regRange_length, byteAfter, ← Nat.add_assoc, Nat.lt_succ_iff]
    rfl
  | _ => exact exec_keeps .memory h (by simp [partsWritten]) a

theorem indexAfter_of_eq (h : t.I = indexAfterTransfer s x) : IndexAfter s t x := by
  have hx := x.isLt
  rw [IndexAfter, h, indexAfterTransfer]
  refine ⟨fun hq => ?_, fun hq => ?_⟩
  · rw [if_pos hq]
    simp only [BitVec.toNat_add, BitVec.toNat_setWidth, BitVec.toNat_ofNat]
    omega
  · rw [hq]
    rfl

theorem exec_ldB_digit (hm : Memory.wf s.mem = true) (hin : s.I.toNat + 3 ≤ 0x1000) (h : exec (.ldB x) s = .next t)
    {k : Nat} (hk : k < 3) : (t.byte (s.I.toNat + k)).toNat = (s.reg x).toNat / 10 ^ (2 - k) % 10 := by
  rw [exec_byteAfter (i := .ldB x) hm (.inr hin) h, byteAfter, if_pos (by omega), Nat.add_sub_cancel_left,
    BitVec.toNat_ofNat]
  omega

/-- Settles O41: the three digits are the bytes at `I`; a byte has no fourth, so the hundreds need no remainder. -/
theorem decimalDigitsAreStored : Obligations.DecimalDigitsAreStored := by
  intro x s hm hin
  have h := exec_ldB_ok x (s := s) (by omega)
  have hdigit {k : Nat} (hk : k < 3) := exec_ldB_digit hm (by omega) h hk
  refine ⟨_, h, (hdigit (k := 0) (by omega)).trans (Nat.mod_eq_of_lt ?hundreds), hdigit (k := 1) (by omega),
    (hdigit (k := 2) (by omega)).trans (by simp),
    fun a ha => exec_byte_outside h (by simp only [accessLength]; omega), rfl, frame_setMem _⟩
  case hundreds =>
    have := (s.reg x).isLt
    omega

theorem exec_storeRegs_byte (hm : Memory.wf s.mem = true) (hin : s.I.toNat + x.toNat ≤ 0xFFF)
    (h : exec (.storeRegs x) s = .next t) {r : RegIdx} (hr : r.toNat ≤ x.toNat) :
    t.byte (s.I.toNat + r.toNat) = s.reg r := by
  rw [exec_byteAfter hm (.inr (by simp only [accessLength]; omega)) h, byteAfter, if_pos (by omega),
    Nat.add_sub_cancel_left, BitVec.ofNat_toNat, BitVec.setWidth_eq]

/-- Settles O42: the registers are the bytes from `I`, and a store reaches no other byte. -/
theorem registersAreStored : Obligations.RegistersAreStored := by
  intro x s hm hin
  have h := exec_storeRegs_ok x (s := s) (by omega)
  exact ⟨_, h, fun r => exec_storeRegs_byte hm hin h,
    fun a ha => exec_byte_outside h (by simp only [accessLength]; omega), indexAfter_of_eq rfl, rfl,
    frame_setMem_setI _ _⟩

/-! ### The registers a load leaves -/

theorem exec_loadRegs_reg (hin : s.I.toNat + x.toNat ≤ 0xFFF) (h : exec (.loadRegs x) s = .next t) (r : RegIdx) :
    t.reg r = if r.toNat ≤ x.toNat then s.byte (s.I.toNat + r.toNat) else s.reg r := by
  obtain rfl := Host.Outcome.next.inj ((exec_loadRegs_ok x (by omega)).symm.trans h)
  exact reg_setRegsFrom_bytesAtI s x r

/-- Settles O43: the bytes from `I` are the registers of the range, and a load keeps the others. -/
theorem registersAreLoaded : Obligations.RegistersAreLoaded := by
  intro x s hin
  have h := exec_loadRegs_ok x (s := s) (by omega)
  have hreg := exec_loadRegs_reg hin h
  exact ⟨_, h, fun r hr => by rw [hreg, if_pos hr], fun r hr => by rw [hreg, if_neg (by omega)], indexAfter_of_eq rfl,
    by simp, frame_loadRegs x _⟩

/-! ### Round trips (R146) -/

/-- Settles O44: the load reads the bytes that the store wrote from the registers. -/
theorem loadAfterStoreRestoresRegisters : Obligations.LoadAfterStoreRestoresRegisters := by
  intro x s t u hm hin hst hI hbytes
  have hload := exec_loadRegs_ok x (s := u) (by rw [hI]; omega)
  refine ⟨_, hload, fun r hr => ?_⟩
  rw [exec_loadRegs_reg (by rw [hI]; exact hin) hload, if_pos hr, hI, hbytes _ (by omega) (by omega),
    exec_storeRegs_byte hm hin hst hr]

/-- Settles O45: the store writes at each address the byte that the load read there. -/
theorem storeAfterLoadKeepsMemory : Obligations.StoreAfterLoadKeepsMemory := by
  intro x s t u hm hin hst hI hregs hbytes
  have hstore := exec_storeRegs_ok x (s := u) (by rw [hI]; omega)
  refine ⟨_, hstore, fun a => ?_⟩
  rw [exec_byteAfter hm (.inr (by simp only [accessLength]; rw [hI]; omega)) hstore, byteAfter, hI]
  split
  case isFalse => rfl
  case isTrue ha =>
    have hx := x.isLt
    have hk : (BitVec.ofNat 4 (a - s.I.toNat)).toNat = a - s.I.toNat := by rw [BitVec.toNat_ofNat]; omega
    rw [hregs _ (by omega), exec_loadRegs_reg hin hst, if_pos (by omega), hk, Nat.add_sub_cancel' ha.1,
      hbytes a ha.1 ha.2]

/-! ### Fetching what was stored -/

/-- Settles O46: the fetch reads the two bytes at pc, each as the store left it. -/
theorem storedCodeIsFetchedNext : Obligations.StoredCodeIsFetchedNext := by
  intro i s t u hm hin h hbytes hpc
  have hbyte (a : Nat) : byteAfter i s a = u.byte a := by rw [hbytes, exec_byteAfter hm hin h]
  rw [hbyte, hbyte]
  exact ⟨fetch_ok hpc, fun hf => executorStep_inside hf hpc⟩

end Sys2Proof.Machine
end

section
/-! PROOF. Calls and returns, register comparisons, arithmetic, the index register, random bytes, keys, legacy calls
(files 40 to 44 and 46). -/

namespace Sys2Proof.Machine

variable {s : State}

/-! ### Control flow -/

/-- Settles O20: the sum needs at most 13 bits. -/
theorem indirectJumpAddsV0 : Obligations.IndirectJumpAddsV0 := fun nnn s =>
  ⟨_, rfl, indirectTarget_toNat nnn s 0x0#4, frame_setPc _⟩

/-- Settles O21: the push succeeds exactly while an entry is free. -/
theorem callPushesTheNextAddress : Obligations.CallPushesTheNextAddress := fun nnn s =>
  ⟨fun hlt => ⟨_, exec_call_ok nnn hlt, addrOperand_toNat nnn, rfl, entry_push hlt _ s.sp, frame_setCallStack _ _ _⟩,
    exec_call_full nnn⟩

/-- Settles O22: the pop succeeds exactly while an entry is in use. -/
theorem returnPopsIntoPc : Obligations.ReturnPopsIntoPc := fun _ =>
  ⟨fun _ hk => ⟨_, exec_ret_pop hk, rfl, rfl, fun _ => rfl, frame_setCallStack _ _ _⟩, exec_ret_empty⟩

/-- Settles O23: the entry the return pops is the one the call pushed. -/
theorem returnUndoesCall : Obligations.ReturnUndoesCall := by
  intro nnn s t u hlt hcall hsp hstack
  obtain rfl := Host.Outcome.next.inj ((exec_call_ok nnn hlt).symm.trans hcall)
  refine ⟨_, exec_ret_pop (k := ⟨s.sp.val, hlt⟩) (by rw [hsp]; rfl), ?_, rfl⟩
  rw [setPc_pc, State.entry, hstack]
  exact (entry_push hlt _ s.sp _).trans (if_pos rfl)

/-- Settles O25: as for an immediate, with `Vy` in its place. -/
theorem skipsComparingRegisters : Obligations.SkipsComparingRegisters := fun _ _ s =>
  ⟨answers_skipIf s beq_iff_eq beq_eq_false_iff_ne, answers_skipIf s bne_iff_ne bne_eq_false_iff_eq⟩

/-! ### Arithmetic without a flag -/

/-- The law of one written register, for a property of the value written. -/
theorem answers_setReg_value {P : Byte → Prop} (x : RegIdx) {b : Byte} (s : State) (h : P b) :
    Answers (.next (advance (s.setReg x b))) fun t => P (t.reg x) ∧ t.pc = s.pc + 2#16 ∧ FrameBut [x] [] s t := by
  obtain ⟨t, ht, hreg, hrest⟩ := answers_setReg x b s
  exact ⟨t, ht, hreg ▸ h, hrest⟩

/-- Settles O27: addition of bytes is modulo 256. -/
theorem addImmediateWrapsWithoutFlag : Obligations.AddImmediateWrapsWithoutFlag := fun x nn s =>
  answers_setReg_value (P := fun v => v.toNat = ((s.reg x).toNat + nn.toNat) % 256) x s (BitVec.toNat_add _ _)

/-- Settles O28: each operation on bytes acts on every bit. -/
theorem logicIsBitwiseWithoutFlag : Obligations.LogicIsBitwiseWithoutFlag := fun x y s =>
  ⟨answers_setReg_value (P := fun v => ∀ k, v.getLsbD k = ((s.reg x).getLsbD k || (s.reg y).getLsbD k)) x s
      fun _ => BitVec.getLsbD_or,
    answers_setReg_value (P := fun v => ∀ k, v.getLsbD k = ((s.reg x).getLsbD k && (s.reg y).getLsbD k)) x s
      fun _ => BitVec.getLsbD_and,
    answers_setReg_value (P := fun v => ∀ k, v.getLsbD k = ((s.reg x).getLsbD k ^^ (s.reg y).getLsbD k)) x s
      fun _ => BitVec.getLsbD_xor⟩

/-! ### Arithmetic with a flag -/

/-- The one law of the flag writers: the flag is written last (R11, R113). -/
theorem answers_writeWithFlag (x : RegIdx) {b : Byte} {c flag : Bool} {result : Nat} (s : State)
    (hresult : b.toNat = result) (hflag : c = flag) :
    Answers (.next (advance (writeWithFlag x b c s))) (ResultAndFlag x result flag s) := by
  subst hresult hflag
  refine ⟨_, rfl, reg_setReg_same _ _ _, fun hx => ?_, rfl, frame_writeWithFlag x b c⟩
  rw [advance_reg, writeWithFlag, reg_setReg_ne _ _ hx, reg_setReg_same]

/-- Settles O29: the carry is computed on the exact sum. -/
theorem addSetsCarry : Obligations.AddSetsCarry := fun x _ s =>
  answers_writeWithFlag x s (BitVec.toNat_add _ _) rfl

theorem toNat_sub_byte (a b : Byte) : (a - b).toNat = (a.toNat + 256 - b.toNat) % 256 := by
  have := b.isLt
  rw [BitVec.toNat_sub]
  omega

/-- Settles O30: both are the same subtraction, with the operands exchanged. -/
theorem subtractionsSetNoBorrow : Obligations.SubtractionsSetNoBorrow := fun x _ s =>
  ⟨answers_writeWithFlag x s (toNat_sub_byte _ _) rfl, answers_writeWithFlag x s (toNat_sub_byte _ _) rfl⟩

theorem shiftSource_eq {x y : RegIdx} {a : Byte} (h : ShiftOperand s x y a) : shiftSource s x y = a := by
  unfold shiftSource
  split
  case isTrue hq => exact (h.1 hq).symm
  case isFalse hq => exact (h.2 (Bool.eq_false_iff.mpr hq)).symm

theorem shiftedOutRight_eq (a : Byte) : shiftedOutRight a = decide (a.toNat % 2 = 1) := Nat.testBit_zero _

theorem shiftedOutLeft_eq (a : Byte) : shiftedOutLeft a = decide (a.toNat ≥ 128) :=
  (BitVec.msb_eq_getLsbD_last a).symm.trans (BitVec.msb_eq_decide a)

theorem toNat_shiftRight_one (a : Byte) : (a >>> 1).toNat = a.toNat / 2 := BitVec.toNat_ushiftRight a 1

theorem toNat_shiftLeft_one (a : Byte) : (a <<< 1).toNat = a.toNat * 2 % 256 := by
  rw [BitVec.toNat_shiftLeft, Nat.shiftLeft_eq]

/-- Settles O31: the quirk selects the operand, and each shift drops one end bit of it. -/
theorem shiftsByOneUnderTheQuirk : Obligations.ShiftsByOneUnderTheQuirk := by
  intro x y s a ha
  obtain rfl := shiftSource_eq ha
  exact ⟨answers_writeWithFlag x s (toNat_shiftRight_one _) (shiftedOutRight_eq _),
    answers_writeWithFlag x s (toNat_shiftLeft_one _) (shiftedOutLeft_eq _)⟩

/-! ### Index register and random -/

theorem lowNibble_toNat (s : State) (r : RegIdx) : (lowNibble s r).toNat = (s.reg r).toNat % 16 := by
  rw [lowNibble, BitVec.extractLsb'_toNat, Nat.shiftRight_zero]

theorem glyphAddress_toNat (d : Nibble) : (glyphAddress d).toNat = 0x050 + 5 * d.toNat := by
  have := d.isLt
  rw [glyphAddress, BitVec.toNat_ofNat]
  exact Nat.mod_eq_of_lt (by simp only [Config.glyphBase, Config.glyphBytes]; omega)

/-- Settles O32: three writes of I, each with the value of its own rule. -/
theorem indexRegisterLoads : Obligations.IndexRegisterLoads := by
  refine fun nnn x s => ⟨⟨_, rfl, addrOperand_toNat nnn, rfl, frame_setI _⟩, ⟨_, rfl, ?_, rfl, frame_setI _⟩,
    ⟨_, rfl, ?_, rfl, frame_setI _⟩⟩
  · exact (BitVec.toNat_add _ _).trans (by rw [regOperand16_toNat])
  · exact (glyphAddress_toNat _).trans (by rw [lowNibble_toNat])

/-- Settles O33: the mask is a bitwise and with the drawn byte. -/
theorem randomByteIsMasked : Obligations.RandomByteIsMasked := by
  refine fun x nn s => ⟨_, rfl, fun k => ?_, rfl, rfl, frame_setReg_setDraws _ _ _⟩
  rw [advance_reg, setDraws_reg, reg_setReg_same, BitVec.getLsbD_and]

/-! ### Keys -/

/-- Settles O38: the tested key is the one of the low nibble. -/
theorem skipsOnAKey : Obligations.SkipsOnAKey := by
  intro x k s hk
  obtain rfl : lowNibble s x = k := BitVec.eq_of_toNat_eq ((lowNibble_toNat s x).trans hk.symm)
  exact ⟨answers_skipIf s Iff.rfl Iff.rfl, answers_skipIf s (Bool.not_eq_true' _).to_iff (Bool.not_eq_false' _).to_iff⟩

/-- The search finds a held key below which none is held. -/
theorem lowestKey_eq {k : KeyIdx} (hk : s.key k = true) (hlow : ∀ j : KeyIdx, j.toNat < k.toNat → s.key j = false) :
    lowestKey s = some k.toFin := by
  cases hfound : lowestKey s with
  | none => exact absurd (lowestKey_none.mp hfound k.toFin) (by simpa [State.key] using hk)
  | some j =>
    obtain ⟨hj, hjlow⟩ := lowestKey_some hfound
    obtain hlt | heq | hgt := lt_trichotomy j k.toFin
    · have := hlow (BitVec.ofFin j) hlt
      simp_all [State.key]
    · rw [heq]
    · have := hjlow _ hgt
      simp_all [State.key]

/-- Settles O40: the two answers of the search for the lowest held key. -/
theorem keyWaitTakesTheLowestHeldKey : Obligations.KeyWaitTakesTheLowestHeldKey := by
  refine fun x s => ⟨fun hnone => ?_, fun k hk hlow => ?_⟩
  · exact exec_ldVxK_none (lowestKey_none.mpr fun j => hnone (BitVec.ofFin j))
  · rw [exec_ldVxK_some (lowestKey_eq hk hlow)]
    refine answers_setReg_value (P := fun v => v.toNat = k.toNat) x s ?_
    exact (BitVec.toNat_ofNat _ _).trans (Nat.mod_eq_of_lt (k.isLt.trans (by decide)))

/-! ### Legacy calls -/

/-- Settles O48: a legacy call's word is its operand under the family nibble 0. -/
theorem legacyCallTakesItsFault : Obligations.LegacyCallTakesItsFault := fun nnn s =>
  ⟨_, exec_sys_fault nnn s, rfl, (BitVec.toNat_append 0x0#4 nnn).trans (by simp), rfl, frame_setFault _⟩

end Sys2Proof.Machine
end

section
/-! PROOF. The other agents (60_exceptions.md R162, R175 to R177; 43_display.md R131; 70_reset_and_hazards.md R186,
R190): ticks, the frame, power-on and reset. -/

namespace Sys2Proof.Machine

variable {s : State}

/-! ### The halted machine -/

/-- What Tick returns (R175): whether ST, after the decrement, is not zero. -/
theorem tick_returns (s : State) : (tick s).2 = decide ((tick s).1.st ≠ 0x00#8) := by
  rw [Bool.eq_iff_iff, tick_snd, soundActive_iff, tick_fst, decide_eq_true_iff]

theorem tick_halted (h : s.fault ≠ none) : tick s = (s, decide (s.st ≠ 0x00#8)) := by
  obtain ⟨f, hf⟩ := Option.ne_none_iff_exists'.mp h
  have hstate : (tick s).1 = s := tickState_halted hf
  refine Prod.ext hstate ?_
  rw [tick_returns, hstate]

/-- Settles O12: the latch is tested by Step and Tick alone, and no unit's operation writes it. -/
theorem haltedMachineStandsStill : Obligations.HaltedMachineStandsStill := fun s k hf =>
  ⟨executorStep_halted hf, tick_halted hf, by rw [key_keySet, if_pos rfl], rfl, key_keyClearAll s k, rfl, rfl, rfl⟩

/-! ### Ticks -/

theorem tick_running (h : s.fault = none) : (tick s).1 = (s.setDt (countDown s.dt)).setSt (countDown s.st) :=
  tickState_running h

theorem frame_setDt_setSt (b c : Byte) : FrameBut [] [.delayTimer, .soundTimer] s ((s.setDt b).setSt c) := by
  refine ⟨fun r _ => rfl, fun p hp => ?_, rfl, rfl⟩
  cases p <;> simp_all [Part.kept]

/-- Settles O49: running, both counters are counted down; halted, the state is kept. -/
theorem tickCountsBothTimersDown : Obligations.TickCountsBothTimersDown := by
  refine fun s => ⟨fun hf => ?_, tick_halted⟩
  refine ⟨?_, ?_, tick_returns s, ?_, ?_⟩ <;> rw [tick_running hf]
  · exact countDown_toNat s.dt
  · exact countDown_toNat s.st
  · rfl
  · exact frame_setDt_setSt _ _

/-- After `n` ticks both counters have gone down by `n`, or to zero: a tick latches no fault, so none is frozen. -/
theorem ticks_toNat (n : Nat) (s : State) (hf : s.fault = none) :
    (ticks n s).dt.toNat = s.dt.toNat - n ∧ (ticks n s).st.toNat = s.st.toNat - n := by
  induction n generalizing s with
  | zero => exact ⟨rfl, rfl⟩
  | succ n ih =>
    obtain ⟨hdt, hst, -⟩ := (tickCountsBothTimersDown s).1 hf
    have hf' : (tick s).1.fault = none := by rw [tick_running hf]; exact hf
    obtain ⟨hdt', hst'⟩ := ih (tick s).1 hf'
    exact ⟨by rw [ticks, hdt', hdt]; omega, by rw [ticks, hst', hst]; omega⟩

/-- Settles O50: sound_active is read off ST after the `n` ticks. -/
theorem timersSaturateAtZero : Obligations.TimersSaturateAtZero := by
  intro n s hf
  obtain ⟨hdt, hst⟩ := ticks_toNat n s hf
  refine ⟨hdt, hst, ?_⟩
  rw [soundActive_iff, ne_eq, ← BitVec.toNat_inj, hst, BitVec.toNat_ofNat]
  omega

/-! ### The frame of the display -/

/-- The cell at a position of the row-major order (R40). -/
def cellAt (fb : Framebuffer) (k : Fin (32 * 64)) : Bool := cell fb k.modNat k.divNat

theorem cellAt_rowMajor (fb : Framebuffer) (x : Fin 64) (y : Fin 32) (h : y.val * 64 + x.val < 32 * 64) :
    cellAt fb ⟨y.val * 64 + x.val, h⟩ = cell fb x y := by
  rw [cellAt]
  congr 1 <;> ext
  · simp only [Fin.coe_modNat]; omega
  · simp only [Fin.coe_divNat]; omega

/-- The returned frame as one row-major list (R131). -/
theorem frameOf_eq_ofFn (fb : Framebuffer) : frameOf fb = List.ofFn (cellAt fb) := by
  rw [List.ofFn_mul, frameOf, List.flatMap_def]
  simp only [cellAt_rowMajor, List.ofFn_eq_map]

theorem frame_setDirty (d : Bool) : FrameBut [] [.dirtyFlag] s (s.setDisplay s.fb d) := by
  refine ⟨fun r _ => rfl, fun p hp => ?_, rfl, rfl⟩
  cases p <;> simp_all [Part.kept]

/-- Settles O52: the cell of column x and row y stands at position 64 y + x. -/
theorem takeFrameReturnsTheCells : Obligations.TakeFrameReturnsTheCells := by
  refine fun s => ⟨?_, fun x y => ?_, rfl, rfl, frame_setDirty false⟩
  · rw [takeFrame, frameOf_eq_ofFn, List.length_ofFn]
  · have hk : y.val * 64 + x.val < 32 * 64 := by omega
    rw [takeFrame, frameOf_eq_ofFn, List.getElem?_ofFn, dif_pos hk, cellAt_rowMajor]

/-! ### Power-on and reset -/

/-- What PowerOn and Reset have in common. -/
theorem rewound_of_fields {t : State} (hv : t.v = Vector.replicate 16 0x00#8) (hI : t.I = 0x0000#16)
    (hpc : t.pc = 0x0200#16) (hsp : t.sp = 0) (hst : t.stack = Vector.replicate 16 0x0000#16) (hdt : t.dt = 0x00#8)
    (hsd : t.st = 0x00#8) (hf : t.fault = none) (hfb : t.fb = blankFramebuffer) (hd : t.dirty = false) : Rewound t := by
  refine ⟨fun r => ?_, hI, hpc, by rw [hsp]; rfl, fun k => ?_, hdt, hsd, hf, fun x y => ?_, hd⟩
  · rw [State.reg, hv]
    exact Vector.getElem_replicate r.isLt
  · rw [State.entry, hst]
    exact Vector.getElem_replicate k.isLt
  · rw [hfb, cell_blankFramebuffer]

theorem rewound_poweredOn (params : Params) (image : List Byte) (s : State) : Rewound (poweredOn params image s) :=
  rewound_of_fields rfl rfl rfl rfl rfl rfl rfl rfl rfl rfl

theorem rewound_hostReset (s : State) : Rewound (hostReset s) :=
  rewound_of_fields (hostReset_v s) (hostReset_I s) (hostReset_pc s) (hostReset_sp s) (hostReset_stack s)
    (hostReset_dt s) (hostReset_st s) (hostReset_fault s) (hostReset_fb s) (hostReset_dirty s)

/-- Writing the glyph table changes only the addresses of R58. -/
theorem peek_pokeBytes_glyphs_outside (g : Vector Byte 80) (m : Memory) {a : Nat} (h : a < 0x050 ∨ 0x0A0 ≤ a) :
    Memory.peek (Memory.pokeBytes m Config.glyphBase g.toList) a = Memory.peek m a :=
  peek_pokeBytes_outside m _ (by rw [Vector.length_toList, Config.glyphBase]; omega)

/-- Settles O55: memory is written by the glyph table alone. -/
theorem resetRewindsAndKeepsTheProgram : Obligations.ResetRewindsAndKeepsTheProgram := by
  refine fun s hm => ⟨_, rfl, rewound_hostReset s, hostReset_keys s, hostReset_params s, hostReset_draws s,
    hostReset_schedule s, ?_, fun k => ?_, fun a ha => ?_⟩
  · rw [hostReset_mem]
    exact wf_pokeBytes_glyphs _ hm
  · rw [State.byte, hostReset_mem]
    exact peek_pokeBytes_glyphs _ hm k
  · rw [State.byte, hostReset_mem, peek_pokeBytes_glyphs_outside _ _ ha, State.byte]

/-- Settles O53: the glyph table and the image are written into a memory with nothing listed, and do not overlap. -/
theorem powerOnConstructsTheMachine : Obligations.PowerOnConstructsTheMachine := by
  intro params image s hfits
  have hwf : Memory.wf (Memory.pokeBytes [] Config.glyphBase params.glyphs.toList) = true :=
    wf_pokeBytes_glyphs _ wf_nil
  have hend : Config.progBase + image.length ≤ Config.memSize := by
    rw [memSize_eq, Config.progBase]
    omega
  refine ⟨_, if_pos hfits, rewound_poweredOn params image s, fun k => ?_, rfl, rfl, rfl, wf_poweredOn params s hfits,
    fun k => ?glyphs, fun k hk => ?image, fun a ha => ?elsewhere⟩
  · exact Vector.getElem_replicate k.isLt
  case glyphs =>
    exact (peek_pokeBytes_outside _ _ (by rw [Config.progBase]; omega)).trans (peek_pokeBytes_glyphs _ wf_nil k)
  case image =>
    rw [List.getD_eq_getElem _ _ hk]
    exact peek_pokeBytes_inside hwf image hend hk
  case elsewhere =>
    refine (peek_pokeBytes_outside _ _ (by rw [Config.progBase]; omega)).trans ?_
    rw [peek_pokeBytes_glyphs_outside _ _ (by omega), peek_nil, initialByte_zero (by omega)]

end Sys2Proof.Machine
end
